-- ==== Sys2Proof/Word.lean ====
section
/-! DEFINITION. The bit-vector widths of the machine (R4, R6, R62 of spec/): what the spec treats as bits. -/

namespace Sys2Proof

/-- A general register, a timer, a byte of memory, an immediate `kk`: 8 bits (R10, R20, R24, R62). -/
abbrev Byte := BitVec 8

/-- An instruction word, `I`, `pc`, a call-stack slot: 16 bits (R13, R14, R17, R60). -/
abbrev Word := BitVec 16

/-- A 4-bit unit: a register index `x` or `y`, a sprite height `n` (R6, R62). -/
abbrev Nibble := BitVec 4

/-- The 12-bit address operand `nnn` (R62). -/
abbrev Addr12 := BitVec 12

end Sys2Proof
end

