-- ==== Sys2Proof/Config.lean ====
section
/-! DEFINITION. The sizes the spec fixes (R4), the parameters it leaves open (FONT_BASE, FONT_STRIDE: R142; the default of
MEM_INIT: R26) and the free inputs of a step (R5). -/

namespace Sys2Proof

namespace Config

/-- `MEM_SIZE`: addresses 0x000 to 0xFFF (R4, R40). -/
def memSize : Nat := 0x1000

/-- `LOAD_OFFSET`: where an image is loaded and where execution starts (R4, R26, R91). -/
def loadOffset : Nat := 0x200

/-- `MAX_IMAGE` = `MEM_SIZE - LOAD_OFFSET` = 3584 bytes (R4, R91). -/
def maxImage : Nat := memSize - loadOffset

/-- `STACK_CAPACITY` (R4, R17). -/
def stackCapacity : Nat := 16

/-- The default of the OPEN parameter MEM_INIT: all 0x00 (R4, R26). A reset with another MEM_INIT is
`State.resetWith` (log 5). -/
def memInitDefault (_ : Nat) : Byte := 0x00

end Config

/-- What the host and the Input collaborator give one step (R5): the random byte, and the key oracle `keys` as the list
of the key numbers that are pressed (log 2). A key number is the full 8-bit value of `Vx` (R173). -/
structure StepInput where
  rand : Byte
  pressed : List Byte
  deriving DecidableEq, Repr, Inhabited

/-- The parameters of `Fx29` (R142). -/
structure FontParams where
  base : Nat
  stride : Nat
  deriving DecidableEq, Repr, Inhabited

/-- R142: "The parameters must satisfy `FONT_BASE + FONT_STRIDE * 255 <= 0xFFFF` so that the result fits `I`". -/
def FontParams.wf (p : FontParams) : Bool := decide (p.base + p.stride * 255 ≤ 0xFFFF)

namespace Config

/-- FREE VALUE (log 2). The input of the step that completes with draw number `n`, where the host has not put one into
`State.inputs`: "free arguments (draws) under no law" (R5). -/
opaque stepInput : Nat → StepInput

/-- FREE VALUE (log 6). The platform's font parameters, OPEN in R4 and R142. -/
opaque platformFont : FontParams

/-- The font parameters `Fx29` uses: the platform's where R142 permits them, else R142's defaults (log 6). -/
def font : FontParams := if platformFont.wf then platformFont else ⟨0x000, 5⟩

end Config

end Sys2Proof
end

