-- ==== Sys2Proof/Syntax.lean ====
section
/-! DEFINITION. The instructions: one constructor per row of spec/opcode_table.json, in the order of R66, carrying the
operands R71 lists (for SHR and SHL also `y`, which is decoded and ignored). Operands have the exact width R62 gives
their field, so an operand out of range cannot be written down. -/

namespace Sys2Proof

/-- The 34 instructions of R66. -/
inductive Instr where
  /-- `00E0` clear display -/
  | cls
  /-- `00EE` return -/
  | ret
  /-- `1nnn` jump -/
  | jp (nnn : Addr12)
  /-- `2nnn` call -/
  | call (nnn : Addr12)
  /-- `3xkk` skip next if Vx = kk -/
  | seImm (x : Nibble) (kk : Byte)
  /-- `4xkk` skip next if Vx != kk -/
  | sneImm (x : Nibble) (kk : Byte)
  /-- `5xy0` skip next if Vx = Vy -/
  | seReg (x y : Nibble)
  /-- `6xkk` Vx := kk -/
  | ldImm (x : Nibble) (kk : Byte)
  /-- `7xkk` Vx := Vx + kk -/
  | addImm (x : Nibble) (kk : Byte)
  /-- `8xy0` Vx := Vy -/
  | ldReg (x y : Nibble)
  /-- `8xy1` Vx := Vx OR Vy -/
  | or (x y : Nibble)
  /-- `8xy2` Vx := Vx AND Vy -/
  | and (x y : Nibble)
  /-- `8xy3` Vx := Vx XOR Vy -/
  | xor (x y : Nibble)
  /-- `8xy4` Vx := Vx + Vy, VF := carry -/
  | addReg (x y : Nibble)
  /-- `8xy5` VF := Vx > Vy, Vx := Vx - Vy -/
  | sub (x y : Nibble)
  /-- `8xy6` VF := low bit, Vx := Vx >> 1 (`y` ignored) -/
  | shr (x y : Nibble)
  /-- `8xy7` VF := Vy > Vx, Vx := Vy - Vx -/
  | subn (x y : Nibble)
  /-- `8xyE` VF := high bit, Vx := Vx << 1 (`y` ignored) -/
  | shl (x y : Nibble)
  /-- `9xy0` skip next if Vx != Vy -/
  | sneReg (x y : Nibble)
  /-- `Annn` I := nnn -/
  | ldI (nnn : Addr12)
  /-- `Bnnn` jump to nnn + V0 -/
  | jpV0 (nnn : Addr12)
  /-- `Cxkk` Vx := random byte AND kk -/
  | rnd (x : Nibble) (kk : Byte)
  /-- `Dxyn` draw request -/
  | drw (x y n : Nibble)
  /-- `Ex9E` skip if key Vx is pressed -/
  | skp (x : Nibble)
  /-- `ExA1` skip if key Vx is not pressed -/
  | sknp (x : Nibble)
  /-- `Fx07` Vx := DT -/
  | ldVxDt (x : Nibble)
  /-- `Fx0A` wait for a key into Vx -/
  | ldVxK (x : Nibble)
  /-- `Fx15` DT := Vx -/
  | ldDtVx (x : Nibble)
  /-- `Fx18` ST := Vx -/
  | ldStVx (x : Nibble)
  /-- `Fx1E` I := I + Vx -/
  | addI (x : Nibble)
  /-- `Fx29` I := font address of digit Vx -/
  | ldF (x : Nibble)
  /-- `Fx33` decimal digits of Vx to memory -/
  | ldB (x : Nibble)
  /-- `Fx55` V0..Vx to memory -/
  | stRegs (x : Nibble)
  /-- `Fx65` V0..Vx from memory -/
  | ldRegs (x : Nibble)
  deriving DecidableEq, Repr

/-- What the Decoder answers for a word (R70): an instruction, or the explicit "unrecognized" variant, which is data and
not an error and carries the word (R71, R176; log 8). -/
inductive Decoded where
  | instr (i : Instr)
  | unrecognized (w : Word)
  deriving DecidableEq, Repr

/-- Why bytes give no word to decode: fewer than the two bytes of an instruction (R60). -/
inductive DecodeReject where
  | truncated (available : Nat)
  deriving DecidableEq, Repr

end Sys2Proof
end

