-- ==== Sys2Proof/WellFormed.lean ====
section
/-! DEFINITION. The checks between plain numbers and the model's typed data. An `Instr` is well formed by its type: every
operand has the width of its field (R62, R63), and "a register index can never be out of range" (R199). So the checks
stand where a number or a byte sequence comes in from outside: an operand number of a listing, the image given to
`load` (R91), the font parameters (`FontParams.wf`, R142, in Config.lean). Each refuses what does not fit; none wraps or
truncates. -/

namespace Sys2Proof

/-- A register index, or any other 4-bit operand (`x`, `y`, `n`), from a number: 0 to 15 (R62). -/
def nibbleOperand? (k : Nat) : Option Nibble := if k < 16 then some (BitVec.ofNat 4 k) else none

/-- An immediate byte `kk` from a number: 0 to 255 (R63). -/
def byteOperand? (k : Nat) : Option Byte := if k < 256 then some (BitVec.ofNat 8 k) else none

/-- An address operand `nnn` from a number: 0 to 0xFFF (R63). -/
def addrOperand? (k : Nat) : Option Addr12 := if k < 0x1000 then some (BitVec.ofNat 12 k) else none

/-- An image `load` accepts: at most `MAX_IMAGE` = 3584 bytes, any length, odd ones included (R91). -/
def imageFits (bytes : List Byte) : Bool := decide (bytes.length ≤ Config.maxImage)

end Sys2Proof
end

