-- ==== Sys2Proof/Decode.lean ====
section
/-! DEFINITION. The Decoder (R62 to R71): a total function from a 16-bit word to an instruction or UNRECOGNIZED, the
encoder written from the same rows of R66, the opcode table itself, and the listing syntax of R72. -/

namespace Sys2Proof

/-! ## Fields of a word (R62) -/

/-- `f = w[15:12]`. -/
def family (w : Word) : Nibble := w.extractLsb' 12 4

/-- `x = w[11:8]`. -/
def fieldX (w : Word) : Nibble := w.extractLsb' 8 4

/-- `y = w[7:4]`. -/
def fieldY (w : Word) : Nibble := w.extractLsb' 4 4

/-- `n = w[3:0]`; also the low nibble that selects inside families 0x5, 0x8 and 0x9 (R65). -/
def fieldN (w : Word) : Nibble := w.extractLsb' 0 4

/-- `kk = w[7:0]`; also the low byte that selects inside families 0xE and 0xF (R65). -/
def fieldKK (w : Word) : Byte := w.extractLsb' 0 8

/-- `nnn = w[11:0]`. -/
def fieldNNN (w : Word) : Addr12 := w.extractLsb' 0 12

/-! ## Decoding (R64, R65) -/

/-- Family 0x0: the whole word is matched (R65). -/
def decodeFamily0 (w : Word) : Decoded :=
  if w = 0x00E0 then .instr .cls
  else if w = 0x00EE then .instr .ret
  else .unrecognized w

/-- Family 0x8: the low nibble selects (R65). -/
def decodeFamily8 (w : Word) : Decoded :=
  let x := fieldX w
  let y := fieldY w
  let n := fieldN w
  if n = 0x0 then .instr (.ldReg x y)
  else if n = 0x1 then .instr (.or x y)
  else if n = 0x2 then .instr (.and x y)
  else if n = 0x3 then .instr (.xor x y)
  else if n = 0x4 then .instr (.addReg x y)
  else if n = 0x5 then .instr (.sub x y)
  else if n = 0x6 then .instr (.shr x y)
  else if n = 0x7 then .instr (.subn x y)
  else if n = 0xE then .instr (.shl x y)
  else .unrecognized w

/-- Family 0xE: the low byte selects (R65). -/
def decodeFamilyE (w : Word) : Decoded :=
  if fieldKK w = 0x9E then .instr (.skp (fieldX w))
  else if fieldKK w = 0xA1 then .instr (.sknp (fieldX w))
  else .unrecognized w

/-- Family 0xF: the low byte selects (R65). -/
def decodeFamilyF (w : Word) : Decoded :=
  let x := fieldX w
  let k := fieldKK w
  if k = 0x07 then .instr (.ldVxDt x)
  else if k = 0x0A then .instr (.ldVxK x)
  else if k = 0x15 then .instr (.ldDtVx x)
  else if k = 0x18 then .instr (.ldStVx x)
  else if k = 0x1E then .instr (.addI x)
  else if k = 0x29 then .instr (.ldF x)
  else if k = 0x33 then .instr (.ldB x)
  else if k = 0x55 then .instr (.stRegs x)
  else if k = 0x65 then .instr (.ldRegs x)
  else .unrecognized w

/-- `decode(word)` (R70): the high nibble selects the family (R64), R65 refines families 0x0, 0x5, 0x8, 0x9, 0xE, 0xF. -/
def decode (w : Word) : Decoded :=
  let f := family w
  if f = 0x0 then decodeFamily0 w
  else if f = 0x1 then .instr (.jp (fieldNNN w))
  else if f = 0x2 then .instr (.call (fieldNNN w))
  else if f = 0x3 then .instr (.seImm (fieldX w) (fieldKK w))
  else if f = 0x4 then .instr (.sneImm (fieldX w) (fieldKK w))
  else if f = 0x5 then (if fieldN w = 0 then .instr (.seReg (fieldX w) (fieldY w)) else .unrecognized w)
  else if f = 0x6 then .instr (.ldImm (fieldX w) (fieldKK w))
  else if f = 0x7 then .instr (.addImm (fieldX w) (fieldKK w))
  else if f = 0x8 then decodeFamily8 w
  else if f = 0x9 then (if fieldN w = 0 then .instr (.sneReg (fieldX w) (fieldY w)) else .unrecognized w)
  else if f = 0xA then .instr (.ldI (fieldNNN w))
  else if f = 0xB then .instr (.jpV0 (fieldNNN w))
  else if f = 0xC then .instr (.rnd (fieldX w) (fieldKK w))
  else if f = 0xD then .instr (.drw (fieldX w) (fieldY w) (fieldN w))
  else if f = 0xE then decodeFamilyE w
  else decodeFamilyF w

/-- The big-endian word of two bytes: the byte at the lower address is the high byte (R41). -/
def wordOfBytes (hi lo : Byte) : Word := hi ++ lo

/-- Decoding from bytes in address order, with the bytes that follow the instruction. -/
def decodeBytes : List Byte → Except DecodeReject (Decoded × List Byte)
  | hi :: lo :: rest => .ok (decode (wordOfBytes hi lo), rest)
  | short => .error (.truncated short.length)

/-- The bytes of an instruction whose bits, numbered as spec/opcode_table.json numbers them, are `w` (the bits above
`nbits` zero), in address order: the hardware stores the high byte first (R41, R60). -/
def tableWordBytes (nbits w : Nat) : List Byte :=
  let v : Word := BitVec.ofNat 16 (w % 2 ^ nbits)
  [v.extractLsb' 8 8, v.extractLsb' 0 8]

/-- The instruction the decoder reads from those bytes; none where they are UNRECOGNIZED. -/
def decodeTableWord (nbits w : Nat) : Option Instr :=
  match decodeBytes (tableWordBytes nbits w) with
  | .ok (.instr i, _) => some i
  | .ok (.unrecognized _, _) => none
  | .error _ => none

/-! ## Encoding (the rows of R66) -/

/-- The word of an instruction: R66's `match` bits with the operands in the fields of R62. -/
def encode : Instr → Word
  | .cls => 0x00E0
  | .ret => 0x00EE
  | .jp nnn => 0x1#4 ++ nnn
  | .call nnn => 0x2#4 ++ nnn
  | .seImm x kk => 0x3#4 ++ x ++ kk
  | .sneImm x kk => 0x4#4 ++ x ++ kk
  | .seReg x y => 0x5#4 ++ x ++ y ++ 0x0#4
  | .ldImm x kk => 0x6#4 ++ x ++ kk
  | .addImm x kk => 0x7#4 ++ x ++ kk
  | .ldReg x y => 0x8#4 ++ x ++ y ++ 0x0#4
  | .or x y => 0x8#4 ++ x ++ y ++ 0x1#4
  | .and x y => 0x8#4 ++ x ++ y ++ 0x2#4
  | .xor x y => 0x8#4 ++ x ++ y ++ 0x3#4
  | .addReg x y => 0x8#4 ++ x ++ y ++ 0x4#4
  | .sub x y => 0x8#4 ++ x ++ y ++ 0x5#4
  | .shr x y => 0x8#4 ++ x ++ y ++ 0x6#4
  | .subn x y => 0x8#4 ++ x ++ y ++ 0x7#4
  | .shl x y => 0x8#4 ++ x ++ y ++ 0xE#4
  | .sneReg x y => 0x9#4 ++ x ++ y ++ 0x0#4
  | .ldI nnn => 0xA#4 ++ nnn
  | .jpV0 nnn => 0xB#4 ++ nnn
  | .rnd x kk => 0xC#4 ++ x ++ kk
  | .drw x y n => 0xD#4 ++ x ++ y ++ n
  | .skp x => 0xE#4 ++ x ++ 0x9E#8
  | .sknp x => 0xE#4 ++ x ++ 0xA1#8
  | .ldVxDt x => 0xF#4 ++ x ++ 0x07#8
  | .ldVxK x => 0xF#4 ++ x ++ 0x0A#8
  | .ldDtVx x => 0xF#4 ++ x ++ 0x15#8
  | .ldStVx x => 0xF#4 ++ x ++ 0x18#8
  | .addI x => 0xF#4 ++ x ++ 0x1E#8
  | .ldF x => 0xF#4 ++ x ++ 0x29#8
  | .ldB x => 0xF#4 ++ x ++ 0x33#8
  | .stRegs x => 0xF#4 ++ x ++ 0x55#8
  | .ldRegs x => 0xF#4 ++ x ++ 0x65#8

/-- The two bytes of a word in address order (R41). -/
def bytesOfWord (w : Word) : List Byte := [w.extractLsb' 8 8, w.extractLsb' 0 8]

/-- The bytes of an instruction in memory. -/
def encodeBytes (i : Instr) : List Byte := bytesOfWord (encode i)

/-! ## The opcode table (R66) -/

/-- One row of R66: its number, its `match` and its `mask`. -/
structure OpcodeRow where
  number : Nat
  bits : Word
  mask : Word
  deriving DecidableEq, Repr

/-- A word `w` is the row's instruction iff `w AND mask = match` (R66). -/
def OpcodeRow.matchesWord (r : OpcodeRow) (w : Word) : Bool := w &&& r.mask == r.bits

/-- Rows 1 to 9 of R66. -/
def opcodeRowsPlain : List OpcodeRow :=
  [⟨1, 0x00E0, 0xFFFF⟩, ⟨2, 0x00EE, 0xFFFF⟩, ⟨3, 0x1000, 0xF000⟩, ⟨4, 0x2000, 0xF000⟩, ⟨5, 0x3000, 0xF000⟩,
   ⟨6, 0x4000, 0xF000⟩, ⟨7, 0x5000, 0xF00F⟩, ⟨8, 0x6000, 0xF000⟩, ⟨9, 0x7000, 0xF000⟩]

/-- Rows 10 to 23 of R66. -/
def opcodeRowsMiddle : List OpcodeRow :=
  [⟨10, 0x8000, 0xF00F⟩, ⟨11, 0x8001, 0xF00F⟩, ⟨12, 0x8002, 0xF00F⟩, ⟨13, 0x8003, 0xF00F⟩, ⟨14, 0x8004, 0xF00F⟩,
   ⟨15, 0x8005, 0xF00F⟩, ⟨16, 0x8006, 0xF00F⟩, ⟨17, 0x8007, 0xF00F⟩, ⟨18, 0x800E, 0xF00F⟩, ⟨19, 0x9000, 0xF00F⟩,
   ⟨20, 0xA000, 0xF000⟩, ⟨21, 0xB000, 0xF000⟩, ⟨22, 0xC000, 0xF000⟩, ⟨23, 0xD000, 0xF000⟩]

/-- Rows 24 to 34 of R66. -/
def opcodeRowsLowByte : List OpcodeRow :=
  [⟨24, 0xE09E, 0xF0FF⟩, ⟨25, 0xE0A1, 0xF0FF⟩, ⟨26, 0xF007, 0xF0FF⟩, ⟨27, 0xF00A, 0xF0FF⟩, ⟨28, 0xF015, 0xF0FF⟩,
   ⟨29, 0xF018, 0xF0FF⟩, ⟨30, 0xF01E, 0xF0FF⟩, ⟨31, 0xF029, 0xF0FF⟩, ⟨32, 0xF033, 0xF0FF⟩, ⟨33, 0xF055, 0xF0FF⟩,
   ⟨34, 0xF065, 0xF0FF⟩]

/-- The complete instruction set (R66). -/
def opcodeTable : List OpcodeRow := opcodeRowsPlain ++ opcodeRowsMiddle ++ opcodeRowsLowByte

/-- The instruction's row of R66. The number is also the numeric code of its variant tag (decision D24). -/
def Instr.opcodeRow : Instr → OpcodeRow
  | .cls => ⟨1, 0x00E0, 0xFFFF⟩
  | .ret => ⟨2, 0x00EE, 0xFFFF⟩
  | .jp _ => ⟨3, 0x1000, 0xF000⟩
  | .call _ => ⟨4, 0x2000, 0xF000⟩
  | .seImm _ _ => ⟨5, 0x3000, 0xF000⟩
  | .sneImm _ _ => ⟨6, 0x4000, 0xF000⟩
  | .seReg _ _ => ⟨7, 0x5000, 0xF00F⟩
  | .ldImm _ _ => ⟨8, 0x6000, 0xF000⟩
  | .addImm _ _ => ⟨9, 0x7000, 0xF000⟩
  | .ldReg _ _ => ⟨10, 0x8000, 0xF00F⟩
  | .or _ _ => ⟨11, 0x8001, 0xF00F⟩
  | .and _ _ => ⟨12, 0x8002, 0xF00F⟩
  | .xor _ _ => ⟨13, 0x8003, 0xF00F⟩
  | .addReg _ _ => ⟨14, 0x8004, 0xF00F⟩
  | .sub _ _ => ⟨15, 0x8005, 0xF00F⟩
  | .shr _ _ => ⟨16, 0x8006, 0xF00F⟩
  | .subn _ _ => ⟨17, 0x8007, 0xF00F⟩
  | .shl _ _ => ⟨18, 0x800E, 0xF00F⟩
  | .sneReg _ _ => ⟨19, 0x9000, 0xF00F⟩
  | .ldI _ => ⟨20, 0xA000, 0xF000⟩
  | .jpV0 _ => ⟨21, 0xB000, 0xF000⟩
  | .rnd _ _ => ⟨22, 0xC000, 0xF000⟩
  | .drw _ _ _ => ⟨23, 0xD000, 0xF000⟩
  | .skp _ => ⟨24, 0xE09E, 0xF0FF⟩
  | .sknp _ => ⟨25, 0xE0A1, 0xF0FF⟩
  | .ldVxDt _ => ⟨26, 0xF007, 0xF0FF⟩
  | .ldVxK _ => ⟨27, 0xF00A, 0xF0FF⟩
  | .ldDtVx _ => ⟨28, 0xF015, 0xF0FF⟩
  | .ldStVx _ => ⟨29, 0xF018, 0xF0FF⟩
  | .addI _ => ⟨30, 0xF01E, 0xF0FF⟩
  | .ldF _ => ⟨31, 0xF029, 0xF0FF⟩
  | .ldB _ => ⟨32, 0xF033, 0xF0FF⟩
  | .stRegs _ => ⟨33, 0xF055, 0xF0FF⟩
  | .ldRegs _ => ⟨34, 0xF065, 0xF0FF⟩

/-- The numeric code of a decoded variant: its row number, 0 for UNRECOGNIZED (decision D24). -/
def Decoded.tag : Decoded → Nat
  | .instr i => i.opcodeRow.number
  | .unrecognized _ => 0

/-! ## Listing syntax (R72, log 11) -/

/-- One hexadecimal digit. -/
def hexDigit (n : Nibble) : String :=
  ["0", "1", "2", "3", "4", "5", "6", "7", "8", "9", "A", "B", "C", "D", "E", "F"].getD n.toNat ""

/-- A register name, `V0` to `VF`. -/
def regName (x : Nibble) : String := "V" ++ hexDigit x

/-- A byte as `0x` and two digits. -/
def hexByte (b : Byte) : String := "0x" ++ hexDigit (b.extractLsb' 4 4) ++ hexDigit (b.extractLsb' 0 4)

/-- A 12-bit address as `0x` and three digits. -/
def hexAddr (a : Addr12) : String :=
  "0x" ++ hexDigit (a.extractLsb' 8 4) ++ hexDigit (a.extractLsb' 4 4) ++ hexDigit (a.extractLsb' 0 4)

/-- A word as `0x` and four digits. -/
def hexWord (w : Word) : String :=
  "0x" ++ hexDigit (family w) ++ hexDigit (fieldX w) ++ hexDigit (fieldY w) ++ hexDigit (fieldN w)

/-- `name Vx, Vy`. -/
def listRegs (name : String) (x y : Nibble) : String := name ++ " " ++ regName x ++ ", " ++ regName y

/-- `name Vx, kk`. -/
def listImm (name : String) (x : Nibble) (kk : Byte) : String := name ++ " " ++ regName x ++ ", " ++ hexByte kk

/-- A shift: `name Vx`, with `Vy` as a second operand where the word holds a `y` other than 0 (R72). -/
def listShift (name : String) (x y : Nibble) : String :=
  if y = 0 then name ++ " " ++ regName x else listRegs name x y

/-- The listing of an instruction (R72). -/
def Instr.listing : Instr → String
  | .cls => "CLS"
  | .ret => "RET"
  | .jp nnn => "JP " ++ hexAddr nnn
  | .call nnn => "CALL " ++ hexAddr nnn
  | .seImm x kk => listImm "SE" x kk
  | .sneImm x kk => listImm "SNE" x kk
  | .seReg x y => listRegs "SE" x y
  | .ldImm x kk => listImm "LD" x kk
  | .addImm x kk => listImm "ADD" x kk
  | .ldReg x y => listRegs "LD" x y
  | .or x y => listRegs "OR" x y
  | .and x y => listRegs "AND" x y
  | .xor x y => listRegs "XOR" x y
  | .addReg x y => listRegs "ADD" x y
  | .sub x y => listRegs "SUB" x y
  | .shr x y => listShift "SHR" x y
  | .subn x y => listRegs "SUBN" x y
  | .shl x y => listShift "SHL" x y
  | .sneReg x y => listRegs "SNE" x y
  | .ldI nnn => "LD I, " ++ hexAddr nnn
  | .jpV0 nnn => "JP V0, " ++ hexAddr nnn
  | .rnd x kk => listImm "RND" x kk
  | .drw x y n => listRegs "DRW" x y ++ ", 0x" ++ hexDigit n
  | .skp x => "SKP " ++ regName x
  | .sknp x => "SKNP " ++ regName x
  | .ldVxDt x => "LD " ++ regName x ++ ", DT"
  | .ldVxK x => "LD " ++ regName x ++ ", K"
  | .ldDtVx x => "LD DT, " ++ regName x
  | .ldStVx x => "LD ST, " ++ regName x
  | .addI x => "ADD I, " ++ regName x
  | .ldF x => "LD F, " ++ regName x
  | .ldB x => "LD B, " ++ regName x
  | .stRegs x => "LD [I], " ++ regName x
  | .ldRegs x => "LD " ++ regName x ++ ", [I]"

/-- The listing of a decoded word: a data word where it is UNRECOGNIZED (R72). -/
def Decoded.listing : Decoded → String
  | .instr i => i.listing
  | .unrecognized w => "DW " ++ hexWord w

end Sys2Proof
end

