-- ==== Sys2Proof/Machine/State.lean ====
section
/-! DEFINITION. The machine's state as plain data (10_state.md of spec/), the two ways a step could stop, and the state
after reset (R26). -/

namespace Sys2Proof.Machine

/-- The fatal causes (R191). -/
inductive Cause where
  /-- `2nnn` with 16 entries on the stack (R193) -/
  | stackOverflow
  /-- `00EE` with an empty stack (R194) -/
  | stackUnderflow
  /-- an address outside its range (R195) -/
  | outOfBounds
  /-- a step while a key is awaited (R196) -/
  | unresolvedInput
  deriving DecidableEq, Repr

/-- Whether the core can step (R22). -/
inductive Status where
  | running
  | awaitKey (x : Nibble)
  | fatal (c : Cause)
  deriving DecidableEq, Repr

/-- An output of a step addressed to a collaborator (R170). -/
inductive Event where
  | displayClear
  | displayDraw (xpos ypos : Byte) (height : Nibble) (rows : List Byte)
  | decodeMiss (word : Word)
  deriving DecidableEq, Repr

/-- What `step` returns (R80): `Ok(events)` or `Error(c)`. -/
inductive StepResult where
  | ok (events : List Event)
  | error (c : Cause)
  deriving DecidableEq, Repr

/-- Why a step would stop with a fault of the host interface. It has no constructor: every condition the spec names is
either an event or a fatal condition, whose entry the spec describes and the model takes as a next state (log 1). So no
step and no instruction of this machine faults; nothing raises one, which is safe. -/
inductive Fault where
  deriving DecidableEq, Repr

/-- Why an instruction would be refused. -/
inductive Refusal where
  /-- Raised by an arm of `exec` whose instruction has no meaning yet, and by nothing else; safe. No arm raises it: every
  row of the opcode table has its meaning. -/
  | notModelled (mnemonic : String)
  deriving DecidableEq, Repr

/-- Memory as the listed bytes, in the canonical form `Memory.wf` (Machine/Ops.lean); an address that is not listed reads
as `unlistedByte`. -/
abbrev Memory := List Host.Cell

/-- Every piece of state the spec gives the machine (10_state.md, R27), and after it the model's own three fields: the
return value of the last step and the inputs of the coming ones, which `Host.Core.step` has no other place for
(logs 2 and 3). -/
structure State where
  /-- `V[0]` to `V[15]` (R10); `V[15]` is also the flag VF (R11) -/
  V : Vector Byte 16
  /-- the index register (R13) -/
  I : Word
  /-- the program counter (R14) -/
  pc : Word
  /-- the sixteen call-stack slots (R17) -/
  stack : Vector Word 16
  /-- how many of them are valid, 0 to 16 (R18) -/
  depth : Fin 17
  /-- the delay timer (R20) -/
  DT : Byte
  /-- the sound timer (R21) -/
  ST : Byte
  /-- Running, AwaitKey(x) or Fatal(c) (R22) -/
  status : Status
  /-- the 4096 bytes (R24) -/
  mem : Memory
  /-- the model's own: what the last step returned, none before the first -/
  result : Option StepResult
  /-- the model's own: inputs the host has handed over for the coming steps, oldest first -/
  inputs : List StepInput
  /-- the model's own: how many steps have completed, the index of the next free input -/
  draws : Nat
  deriving DecidableEq, Repr

/-- The machine right after reset (R26): `pc` at 0x200, everything else zero or empty, memory the default of
MEM_INIT (nothing listed; for any other MEM_INIT: `State.resetWith`, log 5).
The stack slots, which R26 leaves unspecified, are zero (log 4); the model's own fields are logs 2 and 3. -/
def State.reset : State where
  V := Vector.replicate 16 0x00
  I := 0x0000
  pc := 0x0200
  stack := Vector.replicate 16 0x0000
  depth := 0
  DT := 0x00
  ST := 0x00
  status := .running
  mem := []
  result := none
  inputs := []
  draws := 0

end Sys2Proof.Machine
end

