-- ==== Sys2Proof/Machine/Ops.lean ====
section
/-! DEFINITION. The named operations over memory, registers, the call stack and the step itself: MemRead and MemWrite
(R44, R45), push and pop (R19), the phases around execution (R82 to R88), and the one operation that raises a fatal
condition (R192). -/

namespace Sys2Proof.Machine

/-! ## Memory (20_memory.md) -/

/-- What an address that memory does not list reads as: the default of MEM_INIT. Another MEM_INIT is a memory that lists
its other bytes (`Memory.initial`; log 5). -/
def unlistedByte (a : Nat) : Byte := Config.memInitDefault a

/-- The byte at an address. -/
def Memory.read : Memory → Nat → Byte
  | [], a => unlistedByte a
  | (b, v) :: m, a => if a = b then v else Memory.read m a

/-- Memory with no entry for an address. -/
def Memory.erase (m : Memory) (a : Nat) : Memory := m.filter (fun c => c.1 != a)

/-- A new entry put before the first larger address. -/
def Memory.insert : Memory → Nat → Byte → Memory
  | [], a, v => [(a, v)]
  | (b, u) :: m, a, v => if a < b then (a, v) :: (b, u) :: m else (b, u) :: Memory.insert m a v

/-- `mem[a] <- v`, keeping the canonical form: writing what an unlisted address reads as removes the entry. -/
def Memory.write (m : Memory) (a : Nat) (v : Byte) : Memory :=
  if v = unlistedByte a then m.erase a else (m.erase a).insert a v

/-- `mem[a], mem[a+1], ...` written with the bytes in order (R42). -/
def Memory.writeBlock : Memory → Nat → List Byte → Memory
  | m, _, [] => m
  | m, a, v :: vs => Memory.writeBlock (m.write a v) (a + 1) vs

/-- The `n` bytes at `a`, `a+1`, ... (R42). -/
def Memory.readBlock (m : Memory) (a n : Nat) : List Byte := (List.range n).map (fun k => m.read (a + k))

/-- Every entry lies at `lo` or above and below 0x1000, differs from what an unlisted address reads as, and the addresses rise. -/
def Memory.wfFrom : Nat → Memory → Bool
  | _, [] => true
  | lo, (a, v) :: m => decide (lo ≤ a) && decide (a < Config.memSize) && v != unlistedByte a && Memory.wfFrom (a + 1) m

/-- The canonical form of memory: addresses strictly rising, inside 0x000 to 0xFFF, no entry equal to what an
unlisted address reads as. -/
def Memory.wf (m : Memory) : Bool := Memory.wfFrom 0 m

/-- The memory of `n` bytes from `a` on that a MEM_INIT gives: the bytes that differ from an unlisted one. -/
def Memory.initialFrom (memInit : Nat → Byte) : Nat → Nat → Memory
  | 0, _ => []
  | n + 1, a =>
    if memInit a = unlistedByte a then Memory.initialFrom memInit n (a + 1)
    else (a, memInit a) :: Memory.initialFrom memInit n (a + 1)

/-- `mem[a] = MEM_INIT(a)` for every address (R26), in canonical form. -/
def Memory.initial (memInit : Nat → Byte) : Memory := Memory.initialFrom memInit Config.memSize 0

/-- The bounds test of R44, R45 and R146 on the true, unwrapped address of the last of `n` bytes. With no byte there is
no access and no test (R172 with `n = 0`). -/
def accessOutOfBounds (a n : Nat) : Bool := decide (0 < n) && decide (0xFFF < a + n - 1)

/-- MemRead over `n` bytes (R44), the bounds tested before the first byte is read (R145, R172). -/
def Memory.load (m : Memory) (a n : Nat) : Except Cause (List Byte) :=
  if accessOutOfBounds a n then .error .outOfBounds else .ok (m.readBlock a n)

/-- MemWrite of each byte in order (R45), the highest address tested before the first store (R143, R144). -/
def Memory.store (m : Memory) (a : Nat) (vs : List Byte) : Except Cause Memory :=
  if accessOutOfBounds a vs.length then .error .outOfBounds else .ok (m.writeBlock a vs)

/-! ## Registers -/

/-- `V[x]` (R10). -/
def State.reg (s : State) (x : Nibble) : Byte := s.V[x.toNat]'x.isLt

/-- `V[x] <- v` (R10): no register is hardwired. -/
def State.setReg (s : State) (x : Nibble) (v : Byte) : State := { s with V := s.V.set x.toNat v x.isLt }

/-- `V[k], V[k+1], ... <- vs`, for the block load `Fx65` (R145). -/
def setRegsFrom : List Byte → Nat → Vector Byte 16 → Vector Byte 16
  | [], _, V => V
  | v :: vs, k, V => setRegsFrom vs (k + 1) (V.setIfInBounds k v)

/-- `V[0], V[1], ... <- vs`. -/
def State.setRegs (s : State) (vs : List Byte) : State := { s with V := setRegsFrom vs 0 s.V }

/-- `I <- v`. -/
def State.setI (s : State) (v : Word) : State := { s with I := v }

/-- `pc <- t`. -/
def State.setPc (s : State) (t : Word) : State := { s with pc := t }

/-- `DT <- v`. -/
def State.setDT (s : State) (v : Byte) : State := { s with DT := v }

/-- `ST <- v`. -/
def State.setST (s : State) (v : Byte) : State := { s with ST := v }

/-- `status <- v`. -/
def State.setStatus (s : State) (v : Status) : State := { s with status := v }

/-- `mem <- m`. -/
def State.setMem (s : State) (m : Memory) : State := { s with mem := m }

/-- The machine right after reset for any MEM_INIT, which is an argument of the model and no state (R25, R26). With the
default it is `State.reset` (log 5). -/
def State.resetWith (memInit : Nat → Byte) : State := { State.reset with mem := Memory.initial memInit }

/-! ## Call stack (R19) -/

/-- The index of the top entry, `depth - 1`. -/
def State.topIndex (s : State) : Fin 16 := ⟨s.depth.val - 1, by omega⟩

/-- `stack[depth - 1]`. -/
def State.top (s : State) : Word := s.stack[s.topIndex]

/-- Push: overflow when 16 entries stand, else `stack[depth] <- v; depth <- depth + 1` (R19, R102). -/
def State.push (s : State) (v : Word) : Except Cause State :=
  if h : s.depth.val = 16 then .error .stackOverflow
  else .ok { s with stack := s.stack.set s.depth.val v (by omega), depth := ⟨s.depth.val + 1, by omega⟩ }

/-- Pop: underflow when the stack is empty, else `depth <- depth - 1` and the entry that was on top (R19, R100). The slot
keeps its content but is no longer valid (R18). -/
def State.pop (s : State) : Except Cause (Word × State) :=
  if s.depth.val = 0 then .error .stackUnderflow
  else .ok (s.top, { s with depth := ⟨s.depth.val - 1, by omega⟩ })

/-! ## Raising a fatal condition, and the step around an instruction (R82 to R89, R192) -/

/-- `raise Fatal(c)` (R192), the machine's whole exception entry (R202): applied to the state BEFORE the step, so that
every assignment of the step is discarded; only `status` changes, and the step returns `Error(c)` with no event. There is
no handler, no saved register and no return: only reset leaves it (R203). -/
def State.raise (s : State) (c : Cause) : State := { s with status := .fatal c, result := some (.error c) }

/-- A step in `Fatal(c)` (R204): nothing changes, the return is `Error(c)` again. -/
def State.repeatError (s : State) (c : Cause) : State := { s with result := some (.error c) }

/-- One decay of a timer: minus one if it is not zero (R83). -/
def decay (v : Byte) : Byte := if v = 0 then 0 else v - 1

/-- Phases 1 and 2: `pc <- pc0 + 2` (R82), both timers decay (R83). -/
def State.advance (s : State) : State := { s with pc := s.pc + 2, DT := decay s.DT, ST := decay s.ST }

/-- The end of a successful step: it returns `Ok(events)` (R80, R170), and its input is used up (logs 2 and 3). -/
def State.finish (s : State) (events : List Event) : State :=
  { s with result := some (.ok events), inputs := s.inputs.tail, draws := s.draws + 1 }

/-- What phase 5 of an instruction computes from the state on its entry: a state and the events, or the cause it raises. -/
abbrev Phase5 := Except Cause (State × List Event)

/-- Phase 5 ends normally with no event. -/
def State.done (t : State) : Phase5 := .ok (t, [])

/-- A whole step around the phase 5 of an instruction (R86, R88, R89): the advance and the decay come first, and a raised
cause discards them with everything else. -/
def State.execute (s : State) (body : State → Phase5) : Host.Outcome State Fault Refusal :=
  match body s.advance with
  | .ok (t, events) => .next (t.finish events)
  | .error c => .next (s.raise c)

/-- Phase 3: the big-endian word at the pre-advance `pc` (R41, R84). -/
def State.fetch (s : State) : Except Cause Word :=
  if accessOutOfBounds s.pc.toNat 2 then .error .outOfBounds
  else .ok (wordOfBytes (s.mem.read s.pc.toNat) (s.mem.read (s.pc.toNat + 1)))

/-- A control transfer to a computed target (R108): tested on the unbounded integer before `pc` is written. -/
def State.transfer (t : State) (target : Nat) : Phase5 :=
  if 0xFFF < target then .error .outOfBounds else (t.setPc (BitVec.ofNat 16 target)).done

/-- `skip` where the condition holds (R87): a further +2 on the already advanced `pc`. -/
def State.skipIf (t : State) (cond : Bool) : Phase5 := (t.setPc (if cond then t.pc + 2 else t.pc)).done

/-! ## Observation -/

/-- The tone the Audio collaborator makes of the sound timer: on when it is not zero (R21, R208). -/
def State.toneOn (s : State) : Bool := s.ST != 0

/-- The numeric code of a cause (R191, decision D24). -/
def Cause.code : Cause → Nat
  | .stackOverflow => 1
  | .stackUnderflow => 2
  | .outOfBounds => 3
  | .unresolvedInput => 4

end Sys2Proof.Machine
end

