-- ==== Sys2Proof/Machine/Operands.lean ====
section
/-! DEFINITION. Every operand form the spec gives: a register (`State.reg`, Machine/Ops.lean), an immediate as extracted
(R63), the zero-extended address `nnn` (R63), the registers V0..Vx (R144), the inputs `rand` and `keys` of the step (R131,
R173), and the values `Fx29` and `Fx33` compute (R142, R143). -/

namespace Sys2Proof.Machine

/-- `zext_16(nnn)` (R63). -/
def zextAddr (nnn : Addr12) : Word := nnn.setWidth 16

/-- The inputs of this step (R5): the oldest the host has handed over, or a free draw (log 2). -/
def State.input (s : State) : StepInput := s.inputs.headD (Config.stepInput s.draws)

/-- `rand` (R131). -/
def State.rand (s : State) : Byte := s.input.rand

/-- `keys(k) = pressed`, for the full 8-bit key number (R173). -/
def State.keyPressed (s : State) (k : Byte) : Bool := s.input.pressed.contains k

/-- `V[0], ..., V[x]` in order (R144). -/
def State.regsUpTo (s : State) (x : Nibble) : List Byte := s.V.toList.take (x.toNat + 1)

/-- The number of bytes of a block of registers `V0..Vx`: `x + 1` (R144, R145). -/
def blockLength (x : Nibble) : Nat := x.toNat + 1

/-- Hundreds, tens and ones of a byte, each a binary value (R143). -/
def decimalDigits (v : Byte) : List Byte :=
  [BitVec.ofNat 8 (v.toNat / 100), BitVec.ofNat 8 (v.toNat / 10 % 10), BitVec.ofNat 8 (v.toNat % 10)]

/-- `FONT_BASE + FONT_STRIDE * V[x]` on the full 8-bit value (R142). -/
def fontAddress (p : FontParams) (v : Byte) : Word := BitVec.ofNat 16 (p.base + p.stride * v.toNat)

end Sys2Proof.Machine
end

