-- ==== Sys2Proof/Machine/Flags.lean ====
section
/-! DEFINITION. Every flag computation the spec gives (R126 to R130), each from the operands before the operation (R132),
and the two orders in which a result and the flag are written (R95). The flag is register 0xF (R11). -/

namespace Sys2Proof.Machine

/-- The flag register, `V[15]`. -/
def VF : Nibble := 0xF

/-- A flag value: 0x01 or 0x00 (R11). -/
def flagByte (b : Bool) : Byte := if b then 0x01 else 0x00

/-- Carry of `8xy4`: the unbounded sum exceeds 255 (R126). -/
def carryFlag (a b : Byte) : Byte := flagByte (decide (255 < a.toNat + b.toNat))

/-- Flag of `8xy5` and `8xy7`: strictly greater; 0 on equality (R127, R129, conflict C9). -/
def greaterFlag (a b : Byte) : Byte := flagByte (decide (b.toNat < a.toNat))

/-- Flag of `8xy6`: bit 0 of the old value (R128). -/
def lowBitFlag (a : Byte) : Byte := flagByte (a.getLsbD 0)

/-- Flag of `8xyE`: bit 7 of the old value (R130). -/
def highBitFlag (a : Byte) : Byte := flagByte (a.getLsbD 7)

/-- `(a + b) mod 256`, from the unbounded sum (R121, R126). -/
def addWrap (a b : Byte) : Byte := BitVec.ofNat 8 ((a.toNat + b.toNat) % 256)

/-- `(a - b) mod 256`, the non-negative residue of the integer difference (R6, R127). -/
def subWrap (a b : Byte) : Byte := BitVec.ofInt 8 (((a.toNat : Int) - (b.toNat : Int)) % 256)

/-- `a >> 1`, bit 7 becomes 0 (R128). -/
def shiftRight1 (a : Byte) : Byte := a >>> 1

/-- `(a << 1) mod 256` (R130). -/
def shiftLeft1 (a : Byte) : Byte := a <<< 1

/-- The write order of `8xy4`: result, then flag, so with `x = 0xF` the flag stands (R95 b). -/
def State.resultThenFlag (s : State) (x : Nibble) (result flag : Byte) : State := (s.setReg x result).setReg VF flag

/-- The write order of `8xy5 8xy6 8xy7 8xyE`: flag, then result, so with `x = 0xF` the result stands (R95 c). -/
def State.flagThenResult (s : State) (x : Nibble) (flag result : Byte) : State := (s.setReg VF flag).setReg x result

end Sys2Proof.Machine
end

