-- ==== Sys2Proof/Machine/Collaborator.lean ====
section
/-! DEFINITION. The collaborator operations, the key wait and the unrecognized words (45_collaborator_ops.md). -/

namespace Sys2Proof.Machine

/-- `00E0` (R171): a clear request, no core state change. -/
def execCls (s : State) : Host.Outcome State Fault Refusal :=
  s.execute fun t => .ok (t, [.displayClear])

/-- `Dxyn` (R172): the core reads the `n` source bytes and emits the request; VF and `I` are unchanged. -/
def execDrw (x y n : Nibble) (s : State) : Host.Outcome State Fault Refusal :=
  s.execute fun t =>
    match t.mem.load t.I.toNat n.toNat with
    | .error c => .error c
    | .ok rows => .ok (t, [.displayDraw (t.reg x) (t.reg y) n rows])

/-- `Ex9E` (R173). -/
def execSkp (x : Nibble) (s : State) : Host.Outcome State Fault Refusal :=
  s.execute fun t => t.skipIf (t.keyPressed (t.reg x))

/-- `ExA1` (R174). -/
def execSknp (x : Nibble) (s : State) : Host.Outcome State Fault Refusal :=
  s.execute fun t => t.skipIf (!t.keyPressed (t.reg x))

/-- `Fx0A` (R175): the step completes and the core then holds. -/
def execLdVxK (x : Nibble) (s : State) : Host.Outcome State Fault Refusal :=
  s.execute fun t => (t.setStatus (.awaitKey x)).done

/-- An UNRECOGNIZED word (R176): a no-op that is reported. -/
def execUnrecognized (w : Word) (s : State) : Host.Outcome State Fault Refusal :=
  s.execute fun t => .ok (t, [.decodeMiss w])

end Sys2Proof.Machine
end

