-- ==== Sys2Proof/Machine/ControlFlow.lean ====
section
/-! DEFINITION. Control flow (41_control_flow.md): return, jump, call, indexed jump, the four register skips. Each body is
the rule's pseudocode on the state at the entry of phase 5, where `pc = pc0 + 2`. -/

namespace Sys2Proof.Machine

/-- `00EE` (R100): underflow is tested before the popped address. -/
def execRet (s : State) : Host.Outcome State Fault Refusal :=
  s.execute fun t =>
    match t.pop with
    | .error c => .error c
    | .ok (target, u) => u.transfer target.toNat

/-- `1nnn` (R101). -/
def execJp (nnn : Addr12) (s : State) : Host.Outcome State Fault Refusal :=
  s.execute fun t => (t.setPc (zextAddr nnn)).done

/-- `2nnn` (R102): pushes the already advanced `pc`. -/
def execCall (nnn : Addr12) (s : State) : Host.Outcome State Fault Refusal :=
  s.execute fun t =>
    match t.push t.pc with
    | .error c => .error c
    | .ok u => (u.setPc (zextAddr nnn)).done

/-- `Bnnn` (R103): the register is always `V[0]`; the sum is not reduced. -/
def execJpV0 (nnn : Addr12) (s : State) : Host.Outcome State Fault Refusal :=
  s.execute fun t => t.transfer (nnn.toNat + (t.reg 0).toNat)

/-- `3xkk` (R104). -/
def execSeImm (x : Nibble) (kk : Byte) (s : State) : Host.Outcome State Fault Refusal :=
  s.execute fun t => t.skipIf (t.reg x == kk)

/-- `4xkk` (R105). -/
def execSneImm (x : Nibble) (kk : Byte) (s : State) : Host.Outcome State Fault Refusal :=
  s.execute fun t => t.skipIf (t.reg x != kk)

/-- `5xy0` (R106). -/
def execSeReg (x y : Nibble) (s : State) : Host.Outcome State Fault Refusal :=
  s.execute fun t => t.skipIf (t.reg x == t.reg y)

/-- `9xy0` (R107). -/
def execSneReg (x y : Nibble) (s : State) : Host.Outcome State Fault Refusal :=
  s.execute fun t => t.skipIf (t.reg x != t.reg y)

end Sys2Proof.Machine
end

