-- ==== Sys2Proof/Machine/IndexMemory.lean ====
section
/-! DEFINITION. The index register and the memory-block instructions (43_index_memory.md). The one addressing mode is `I`
plus a fixed offset, without wrap; `I` is never changed by an access (R146). -/

namespace Sys2Proof.Machine

/-- `Annn` (R140). -/
def execLdI (nnn : Addr12) (s : State) : Host.Outcome State Fault Refusal :=
  s.execute fun t => (t.setI (zextAddr nnn)).done

/-- `Fx1E` (R141): a sum above 0xFFFF is fatal; VF is not written. -/
def execAddI (x : Nibble) (s : State) : Host.Outcome State Fault Refusal :=
  s.execute fun t =>
    if 0xFFFF < t.I.toNat + (t.reg x).toNat then .error .outOfBounds
    else (t.setI (BitVec.ofNat 16 (t.I.toNat + (t.reg x).toNat))).done

/-- `Fx29` (R142): the parameters are open (log 6). -/
def execLdF (x : Nibble) (s : State) : Host.Outcome State Fault Refusal :=
  s.execute fun t => (t.setI (fontAddress Config.font (t.reg x))).done

/-- `Fx33` (R143). -/
def execLdB (x : Nibble) (s : State) : Host.Outcome State Fault Refusal :=
  s.execute fun t =>
    match t.mem.store t.I.toNat (decimalDigits (t.reg x)) with
    | .error c => .error c
    | .ok m => (t.setMem m).done

/-- `Fx55` (R144). -/
def execStRegs (x : Nibble) (s : State) : Host.Outcome State Fault Refusal :=
  s.execute fun t =>
    match t.mem.store t.I.toNat (t.regsUpTo x) with
    | .error c => .error c
    | .ok m => (t.setMem m).done

/-- `Fx65` (R145). -/
def execLdRegs (x : Nibble) (s : State) : Host.Outcome State Fault Refusal :=
  s.execute fun t =>
    match t.mem.load t.I.toNat (blockLength x) with
    | .error c => .error c
    | .ok vs => (t.setRegs vs).done

end Sys2Proof.Machine
end

