-- ==== Sys2Proof/Machine/LoadAlu.lean ====
section
/-! DEFINITION. Loads, arithmetic, logic, shifts, random (42_load_alu.md). Operands are read once, before any write (R95). -/

namespace Sys2Proof.Machine

/-- `6xkk` (R120). -/
def execLdImm (x : Nibble) (kk : Byte) (s : State) : Host.Outcome State Fault Refusal :=
  s.execute fun t => (t.setReg x kk).done

/-- `7xkk` (R121): wraps, no flag. -/
def execAddImm (x : Nibble) (kk : Byte) (s : State) : Host.Outcome State Fault Refusal :=
  s.execute fun t => (t.setReg x (addWrap (t.reg x) kk)).done

/-- `8xy0` (R122). -/
def execLdReg (x y : Nibble) (s : State) : Host.Outcome State Fault Refusal :=
  s.execute fun t => (t.setReg x (t.reg y)).done

/-- `8xy1` (R123): VF is left alone (R132). -/
def execOr (x y : Nibble) (s : State) : Host.Outcome State Fault Refusal :=
  s.execute fun t => (t.setReg x (t.reg x ||| t.reg y)).done

/-- `8xy2` (R124). -/
def execAnd (x y : Nibble) (s : State) : Host.Outcome State Fault Refusal :=
  s.execute fun t => (t.setReg x (t.reg x &&& t.reg y)).done

/-- `8xy3` (R125). -/
def execXor (x y : Nibble) (s : State) : Host.Outcome State Fault Refusal :=
  s.execute fun t => (t.setReg x (t.reg x ^^^ t.reg y)).done

/-- `8xy4` (R126): result, then carry. -/
def execAddReg (x y : Nibble) (s : State) : Host.Outcome State Fault Refusal :=
  s.execute fun t => (t.resultThenFlag x (addWrap (t.reg x) (t.reg y)) (carryFlag (t.reg x) (t.reg y))).done

/-- `8xy5` (R127): flag (`Vx > Vy`), then difference. -/
def execSub (x y : Nibble) (s : State) : Host.Outcome State Fault Refusal :=
  s.execute fun t => (t.flagThenResult x (greaterFlag (t.reg x) (t.reg y)) (subWrap (t.reg x) (t.reg y))).done

/-- `8xy6` (R128): the source operand is `Vx`; `y` is ignored. -/
def execShr (x : Nibble) (s : State) : Host.Outcome State Fault Refusal :=
  s.execute fun t => (t.flagThenResult x (lowBitFlag (t.reg x)) (shiftRight1 (t.reg x))).done

/-- `8xy7` (R129): flag (`Vy > Vx`), then the reversed difference. -/
def execSubn (x y : Nibble) (s : State) : Host.Outcome State Fault Refusal :=
  s.execute fun t => (t.flagThenResult x (greaterFlag (t.reg y) (t.reg x)) (subWrap (t.reg y) (t.reg x))).done

/-- `8xyE` (R130): the source operand is `Vx`; `y` is ignored. -/
def execShl (x : Nibble) (s : State) : Host.Outcome State Fault Refusal :=
  s.execute fun t => (t.flagThenResult x (highBitFlag (t.reg x)) (shiftLeft1 (t.reg x))).done

/-- `Cxkk` (R131). -/
def execRnd (x : Nibble) (kk : Byte) (s : State) : Host.Outcome State Fault Refusal :=
  s.execute fun t => (t.setReg x (t.rand &&& kk)).done

end Sys2Proof.Machine
end

