-- ==== Sys2Proof/Machine/Timers.lean ====
section
/-! DEFINITION. The timer instructions (44_timers.md). The decay of this step has already happened (R163). -/

namespace Sys2Proof.Machine

/-- `Fx07` (R160): reads the decayed `DT`. -/
def execLdVxDt (x : Nibble) (s : State) : Host.Outcome State Fault Refusal :=
  s.execute fun t => (t.setReg x t.DT).done

/-- `Fx15` (R161): overwrites the decayed `DT`. -/
def execLdDtVx (x : Nibble) (s : State) : Host.Outcome State Fault Refusal :=
  s.execute fun t => (t.setDT (t.reg x)).done

/-- `Fx18` (R162). -/
def execLdStVx (x : Nibble) (s : State) : Host.Outcome State Fault Refusal :=
  s.execute fun t => (t.setST (t.reg x)).done

end Sys2Proof.Machine
end

