-- ==== Sys2Proof/Machine/Cycle.lean ====
section
/-! DEFINITION. The fetch-decode-execute cycle around `exec` (R81, R84, R85, R89, R201) and the placing of a word where the
cycle fetches. -/

namespace Sys2Proof.Machine

/-- Phases 4 and 5 for the fetched word (R85, R86). -/
def State.runWord (s : State) (w : Word) : Host.Outcome State Fault Refusal :=
  match decode w with
  | .instr i => exec i s
  | .unrecognized u => execUnrecognized u s

/-- The step in the order of R89 and R201: `status` on entry, then the fetch, then the instruction. The fetch reads at the
pre-advance `pc` and nothing before it touches memory, so it stands before the advance and the decay, which are part of
`State.execute` (log 7). -/
def State.cycle (s : State) : Host.Outcome State Fault Refusal :=
  match s.status with
  | .fatal c => .next (s.repeatError c)
  | .awaitKey _ => .next (s.raise .unresolvedInput)
  | .running =>
    match s.fetch with
    | .error c => .next (s.raise c)
    | .ok w => s.runWord w

/-- The state with bytes stored where the next step fetches, ready to run them: `status` is Running, and a `pc` that
cannot be fetched from (R16) is put at the load offset (log 9). -/
def State.placeAtFetch (s : State) (bytes : List Byte) : State :=
  let pc : Word := if accessOutOfBounds s.pc.toNat 2 then BitVec.ofNat 16 Config.loadOffset else s.pc
  { s with pc := pc, status := .running, mem := s.mem.writeBlock pc.toNat bytes }

end Sys2Proof.Machine
end

