-- ==== Sys2Proof/Machine/Step.lean ====
section
/-! DEFINITION. The step of the host interface, and the placing of an instruction where it fetches. -/

namespace Sys2Proof.Machine

/-- `step` (R80, R92): one fetch-decode-execute cycle. Its inputs and its return value stand in the state (logs 2, 3). -/
def step (s : State) : Host.Outcome State Fault Refusal := s.cycle

/-- `s` with an instruction, numbered as spec/opcode_table.json numbers its bits, where `step` fetches next (log 9). -/
def State.withFetchWord (s : State) (nbits w : Nat) : State := s.placeAtFetch (tableWordBytes nbits w)

end Sys2Proof.Machine
end

