-- ==== Sys2Proof/Machine/Transactions.lean ====
section
/-! DEFINITION. The five atomic transactions by which the host drives the core between steps (R8, R90 to R94). -/

namespace Sys2Proof.Machine

/-- What `load` returns (R91, R198): `LoadOverflow` is a result, never a fatal condition. -/
inductive LoadResult where
  | ok
  | loadOverflow
  deriving DecidableEq, Repr

/-- `reset()` (R90): every state element at its reset value, in any status, memory at MEM_INIT (R26). The host's pending inputs and the draw counter,
which are the model's own, are kept, so that inputs drawn after a reset are not those drawn before it (log 2). -/
def State.hostReset (s : State) (memInit : Nat → Byte) : State :=
  { State.resetWith memInit with inputs := s.inputs, draws := s.draws }

/-- `load(bytes)` (R91): copied to 0x200, or refused with no change at all when it does not fit. -/
def State.loadImage (s : State) (bytes : List Byte) : LoadResult × State :=
  if imageFits bytes then (.ok, s.setMem (s.mem.writeBlock Config.loadOffset bytes)) else (.loadOverflow, s)

/-- `step(rand, keys)` with the inputs given as arguments (R92); the pending inputs are kept for later steps. -/
def State.stepWith (s : State) (input : StepInput) : Host.Outcome State Fault Refusal :=
  match step { s with inputs := [input] } with
  | .next t => .next { t with inputs := s.inputs }
  | .fault f => .fault f
  | .refused r => .refused r

/-- `supply_key(K)` (R93): in `AwaitKey(x)` it writes `V[x]` and resumes; in any other status it changes nothing. -/
def State.supplyKey (s : State) (K : Byte) : State :=
  match s.status with
  | .awaitKey x => (s.setReg x K).setStatus .running
  | .running => s
  | .fatal _ => s

/-- `snapshot()` (R94): the 4096 bytes in address order. -/
def State.snapshot (s : State) : List Byte := s.mem.readBlock 0 Config.memSize

/-- One host operation. -/
inductive Transaction where
  | reset
  | load (bytes : List Byte)
  | step (input : StepInput)
  | supplyKey (K : Byte)
  | snapshot
  deriving DecidableEq, Repr

/-- What a host operation returns. -/
inductive Reply where
  | done
  | loaded (r : LoadResult)
  | stepped (r : Option StepResult)
  | memory (bytes : List Byte)
  deriving DecidableEq, Repr

/-- One transaction of a machine with the given MEM_INIT: the state after it and what it returns. -/
def State.transact (memInit : Nat → Byte) (s : State) : Transaction → Host.Outcome (State × Reply) Fault Refusal
  | .reset => .next (s.hostReset memInit, .done)
  | .load bytes => .next ((s.loadImage bytes).2, .loaded (s.loadImage bytes).1)
  | .step input =>
    match s.stepWith input with
    | .next t => .next (t, .stepped t.result)
    | .fault f => .fault f
    | .refused r => .refused r
  | .supplyKey K => .next (s.supplyKey K, .done)
  | .snapshot => .next (s, .memory s.snapshot)

/-- Transactions in order. -/
def State.transactAll (memInit : Nat → Byte) : State → List Transaction → Host.Outcome State Fault Refusal
  | s, [] => .next s
  | s, x :: xs =>
    match s.transact memInit x with
    | .next (t, _) => t.transactAll memInit xs
    | .fault f => .fault f
    | .refused r => .refused r

/-- The boot sequence up to the first step (R222): reset, then load. -/
def State.boot (s : State) (memInit : Nat → Byte) (image : List Byte) : LoadResult × State :=
  (s.hostReset memInit).loadImage image

end Sys2Proof.Machine
end

