-- ==== Sys2Proof/Safety.lean ====
section
/-! DEFINITION. What counts as a safe run, the invariant of R28, and the terms the claims are written in: what stays
unchanged from one state to the next. -/

namespace Sys2Proof.Machine

/-- The step completed, or nothing has failed yet: `status` is no fatal condition (R22). -/
abbrev State.NotFatal (s : State) : Prop := ∀ c : Cause, s.status ≠ .fatal c

/-- The next `n` steps all complete: a safe run reaches no fatal condition. -/
def SafeFor (n : Nat) (s : State) : Prop :=
  ∀ k, k ≤ n → ∃ t : State, Host.Core.run Sys2Proof.core k s = .next t ∧ t.NotFatal

/-- R28, with the canonical form of memory: `pc` in 0..0x1002 and every valid stack entry in 0x002..0x1000. The other
ranges of R28 (`depth`, `V`, `I`, `DT`, `ST`) hold by the fields' types. -/
abbrev State.Inv (s : State) : Prop :=
  s.mem.wf = true ∧ s.pc.toNat ≤ 0x1002 ∧
    ∀ k : Fin 16, k.val < s.depth.val → 0x002 ≤ s.stack[k].toNat ∧ s.stack[k].toNat ≤ 0x1000

/-- The big-endian word at `pc` (R41). -/
def State.wordAtPc (s : State) : Word := s.mem.read s.pc.toNat ++ s.mem.read (s.pc.toNat + 1)

/-- The step reaches its decode phase: the core is Running and both bytes at `pc` exist (R81, R84). -/
abbrev State.CanFetch (s : State) : Prop := s.status = .running ∧ s.pc.toNat + 1 ≤ 0xFFF

/-- The state a step leaves that raises `c` from `s` (R192): `s` with `status` and the returned value changed. -/
def State.failed (s : State) (c : Cause) : State := { s with status := .fatal c, result := some (.error c) }

/-- `n` completed steps from `s` to `t`, none of which ran an instruction in `P`. -/
def RunsAvoiding (P : Instr → Prop) : Nat → State → State → Prop
  | 0, s, t => s = t
  | n + 1, s, t =>
    ∃ u : State, step s = .next u ∧ u.NotFatal ∧ (∀ i, decode s.wordAtPc = .instr i → ¬ P i) ∧ RunsAvoiding P n u t

/-- Instructions executed one after the other. -/
def execAll : List Instr → State → Host.Outcome State Fault Refusal
  | [], s => .next s
  | i :: is, s =>
    match exec i s with
    | .next t => execAll is t
    | .fault f => .fault f
    | .refused r => .refused r

/-- Every register reads as before. -/
def SameRegs (s t : State) : Prop := ∀ r : Nibble, t.reg r = s.reg r

/-- Every byte of memory reads as before. -/
def SameMem (s t : State) : Prop := ∀ a : Nat, t.mem.read a = s.mem.read a

/-- The depth and every slot of the call stack, valid or not, are as before. -/
def SameStack (s t : State) : Prop := t.depth = s.depth ∧ ∀ k : Fin 16, t.stack[k] = s.stack[k]

/-- Both timers are one less than before, unless they were zero (R83). -/
def TimersDecayed (s t : State) : Prop :=
  t.DT = (if s.DT = 0 then 0 else s.DT - 1) ∧ t.ST = (if s.ST = 0 then 0 else s.ST - 1)

/-- The step returned `Ok(events)` and used up its input. -/
def Returned (s t : State) (events : List Event) : Prop :=
  t.result = some (.ok events) ∧ t.inputs = s.inputs.tail ∧ t.draws = s.draws + 1

/-- Everything a completed step leaves besides the instruction's own effect: the timers decayed, `status` as before, the
given events returned. -/
def CompletedStep (s t : State) (events : List Event) : Prop :=
  TimersDecayed s t ∧ t.status = s.status ∧ Returned s t events

/-- A completed step with no event that left memory, `I` and the stack alone: `pc` and the registers are the given ones. -/
def RegisterStep (s t : State) (pc : Word) (regs : Nibble → Byte) : Prop :=
  t.pc = pc ∧ (∀ r, t.reg r = regs r) ∧ t.I = s.I ∧ SameStack s t ∧ SameMem s t ∧ CompletedStep s t []

end Sys2Proof.Machine

namespace Sys2Proof

/-- The registers an instruction may write (R12's table): `Vx`, the flag register, or `V0..Vx`. -/
def Instr.mayWriteReg (i : Instr) (r : Nibble) : Prop :=
  match i with
  | .ldImm x _ | .addImm x _ | .ldReg x _ | .or x _ | .and x _ | .xor x _ | .rnd x _ | .ldVxDt x => r = x
  | .addReg x _ | .sub x _ | .shr x _ | .subn x _ | .shl x _ => r = x ∨ r = 0xF
  | .ldRegs x => r.toNat ≤ x.toNat
  | .cls | .ret | .jp _ | .call _ | .seImm _ _ | .sneImm _ _ | .seReg _ _ | .sneReg _ _ | .ldI _ | .jpV0 _ | .drw _ _ _
  | .skp _ | .sknp _ | .ldVxK _ | .ldDtVx _ | .ldStVx _ | .addI _ | .ldF _ | .ldB _ | .stRegs _ => False

end Sys2Proof
end

