-- ==== Sys2Proof/Certificates/Slice0/Obligations.lean ====
section
/-! DEFINITION. The statements. Each docstring says what it states and, where a clause rests on a choice of the spec's own
(a decision D<n> of spec/92_eei_decisions.md) or of the model (log <n>), names it. -/

section
open Sys2Proof Sys2Proof.Machine

/-- For every instruction, with every operand at every value its field admits, decode of encode is that instruction: no
bit of an encoding is dropped. [derived: 30_encoding.md sections 2 to 4] -/
def Obligations.DecodeOfEncodeGivesTheInstruction : Prop :=
  ∀ i : Instr, decode (encode i) = .instr i

/-- For every 16-bit word that decodes to an instruction, encoding that instruction gives the word back: each
instruction has exactly one word, the ignored y of the shifts included. That no other word of the families 0x0, 0x5
and 0x9 is CLS, RET, SE_REG or SNE_REG too rests on the spec's decision D12 (conflict C3: the table over the prose).
[derived: 30_encoding.md sections 2 to 4 (conflict C3; the match widths of families 0x0, 0x5, 0x9 are decision D12)] -/
def Obligations.EncodeOfDecodeGivesTheWord : Prop :=
  ∀ (w : Word) (i : Instr), decode w = .instr i → encode i = w

/-- For every word: a word that matches a row of the opcode table decodes to an instruction of that row; an instruction
decoded from a word has a row of the table that the word matches; no word matches two rows; and a word is
UNRECOGNIZED exactly when it matches no row. [derived: 30_encoding.md section 4 (opcode map; the match widths of
families 0x0, 0x5, 0x9 are decision D12)] -/
def Obligations.DecodeFollowsTheOpcodeTable : Prop :=
  ∀ w : Word,
    (∀ r ∈ opcodeTable, r.matchesWord w = true → ∃ i, decode w = .instr i ∧ i.opcodeRow = r) ∧
    (∀ i, decode w = .instr i → i.opcodeRow ∈ opcodeTable ∧ i.opcodeRow.matchesWord w = true) ∧
    (∀ r₁ ∈ opcodeTable, ∀ r₂ ∈ opcodeTable, r₁.matchesWord w = true → r₂.matchesWord w = true → r₁ = r₂) ∧
    (decode w = .unrecognized w ↔ ∀ r ∈ opcodeTable, r.matchesWord w = false)

/-- A word decodes to UNRECOGNIZED, carrying itself, exactly when it lies in family 0x0 and is neither 0x00E0 nor
0x00EE, or in family 0x5 or 0x9 with a low nibble other than 0, or in family 0x8 with low nibble 8 to 0xD or 0xF, or
in family 0xE or 0xF with a low byte none of their instructions has. [derived: 30_encoding.md section 5 (the list of
the UNRECOGNIZED words, which the spec derives from decision D12)] -/
def Obligations.UnrecognizedSpaceIsExact : Prop :=
  ∀ w : Word, decode w = .unrecognized w ↔
    let f := w.toNat / 0x1000
    let n := w.toNat % 0x10
    let k := w.toNat % 0x100
    (f = 0x0 ∧ w ≠ 0x00E0 ∧ w ≠ 0x00EE) ∨ ((f = 0x5 ∨ f = 0x9) ∧ n ≠ 0) ∨
    (f = 0x8 ∧ n ∈ [0x8, 0x9, 0xA, 0xB, 0xC, 0xD, 0xF]) ∨ (f = 0xE ∧ k ∉ [0x9E, 0xA1]) ∨
    (f = 0xF ∧ k ∉ [0x07, 0x0A, 0x15, 0x18, 0x1E, 0x29, 0x33, 0x55, 0x65])

/-- For every word: f is bits 15 to 12, x bits 11 to 8 and also (w >> 8) AND 0xF, y bits 7 to 4 and also (w >> 4) AND
0xF, kk bits 7 to 0, nnn bits 11 to 0, n bits 3 to 0. [stated: R62] -/
def Obligations.FieldsAreTheBitsTheSpecNames : Prop :=
  ∀ w : Word,
    (family w).toNat = w.toNat / 0x1000 ∧
    (fieldX w).toNat = w.toNat / 0x100 % 0x10 ∧ fieldX w = ((w >>> 8) &&& 0xF).setWidth 4 ∧
    (fieldY w).toNat = w.toNat / 0x10 % 0x10 ∧ fieldY w = ((w >>> 4) &&& 0xF).setWidth 4 ∧
    (fieldKK w).toNat = w.toNat % 0x100 ∧ (fieldNNN w).toNat = w.toNat % 0x1000 ∧ (fieldN w).toNat = w.toNat % 0x10

/-- decode(0x8120) is LD_REG with x = 1 and y = 2, the source's own example, and at least one word of each of the
sixteen families decodes as the decode table of the test vectors says. That 0x5AB1 and 0x9AB8 are UNRECOGNIZED rests
on the spec's decision D12. [derived: 95_test_vectors.md section 2.1 (decode table), 30_encoding.md section 5 (R69,
the source's worked example), decision D12 (0x5AB1, 0x9AB8)] -/
def Obligations.DecodeOfWordsTheSpecWritesOut : Prop :=
  decode 0x8120 = .instr (.ldReg 1 2) ∧ decode 0x00E0 = .instr .cls ∧ decode 0x1ABC = .instr (.jp 0xABC) ∧
  decode 0x2ABC = .instr (.call 0xABC) ∧ decode 0x3A7F = .instr (.seImm 0xA 0x7F) ∧
  decode 0x4F00 = .instr (.sneImm 0xF 0x00) ∧ decode 0x6C3D = .instr (.ldImm 0xC 0x3D) ∧
  decode 0x7E01 = .instr (.addImm 0xE 0x01) ∧ decode 0x9AB0 = .instr (.sneReg 0xA 0xB) ∧
  decode 0x9AB8 = .unrecognized 0x9AB8 ∧ decode 0xA123 = .instr (.ldI 0x123) ∧ decode 0xC5A5 = .instr (.rnd 5 0xA5) ∧
  decode 0x5AB0 = .instr (.seReg 0xA 0xB) ∧
  decode 0x5AB1 = .unrecognized 0x5AB1 ∧ decode 0x8ABE = .instr (.shl 0xA 0xB) ∧ decode 0xBFFF = .instr (.jpV0 0xFFF) ∧
  decode 0xD12F = .instr (.drw 1 2 0xF) ∧ decode 0xE5A1 = .instr (.sknp 5) ∧ decode 0xF565 = .instr (.ldRegs 5)

/-- Where the core is Running and both bytes at pc exist: if the big-endian word at pc decodes to an instruction, step
is exec of that instruction at that state, with nothing added around it; if it is UNRECOGNIZED, step is the meaning
of the unrecognized word. The pc advance and the timer decay are inside exec. [derived: 40_step_cycle.md section 1
(phases 3 to 5 and the whole step), 20_memory.md section 2] -/
def Obligations.StepRunsTheDecodedInstruction : Prop :=
  ∀ s : State, s.CanFetch →
    (∀ i, decode (s.mem.read s.pc.toNat ++ s.mem.read (s.pc.toNat + 1)) = .instr i → step s = exec i s) ∧
    (∀ w, decode (s.mem.read s.pc.toNat ++ s.mem.read (s.pc.toNat + 1)) = .unrecognized w → step s = execUnrecognized w s)

/-- For every state and every 16-bit word that decodes to an instruction, the step after withFetchWord is exec of that
instruction. withFetchWord is the model's (log 9), not the spec's. [derived: 40_step_cycle.md section 1,
20_memory.md section 2, the model's placing of a word: log 9] -/
def Obligations.StepRunsAPlacedWord : Prop :=
  ∀ (s : State) (w : Word) (i : Instr), decode w = .instr i →
    decodeTableWord 16 w.toNat = some i ∧ step (s.withFetchWord 16 w.toNat) = exec i (s.withFetchWord 16 w.toNat)

/-- Where the core is Running, both bytes at pc exist and the word there is UNRECOGNIZED, the step completes: pc is pc0
+ 2, the timers have decayed, every register, I, the stack and memory are as before, status is unchanged, and the
one event is DecodeMiss of that word. That ST decays in the step too is the spec's decision D8. That the step uses
up its input (log 2) and where its returned value stands (log 3) are the model's choices. [derived:
45_collaborator_ops.md section 5, decision D8 (the decay of ST), the input and the returned value in the state: logs
2 and 3] -/
def Obligations.UnrecognizedWordIsAReportedNoOp : Prop :=
  ∀ (s : State) (u : Word), s.CanFetch → decode s.wordAtPc = .unrecognized u →
    ∃ t, step s = .next t ∧ t.pc = s.pc + 2 ∧ SameRegs s t ∧ t.I = s.I ∧ SameStack s t ∧ SameMem s t ∧
      CompletedStep s t [.decodeMiss s.wordAtPc]

/-- Running with pc above 0xFFE: the step raises OutOfBounds. AwaitKey: the step raises UnresolvedInput, whatever pc is.
Either way only status and the returned value change (the discarding is the spec's decision D5, the fatal premature
step D7). A fatal condition is taken as a next state (log 1). [derived: 40_step_cycle.md section 1 (fetch),
60_exceptions.md section 1 (OutOfBounds, UnresolvedInput), decisions D5 and D7, a fatal condition as a next state:
log 1] -/
def Obligations.StepThatCannotFetchIsFatal : Prop :=
  ∀ s : State,
    (s.status = .running → 0xFFE < s.pc.toNat → step s = .next (s.failed .outOfBounds)) ∧
    (∀ x, s.status = .awaitKey x → step s = .next (s.failed .unresolvedInput))

/-- From a state in Fatal(c), every run of one or more steps ends in the same state with Error(c) as the returned value:
not even pc or the timers change, and the cause is never overwritten (the spec's decision D6). Such a step answers a
next state (log 1), and the returned value is the model's own field (log 3). [derived: 60_exceptions.md section 4
(decision D6), a step in Fatal as a next state: log 1, the returned value in the state: log 3] -/
def Obligations.FatalIsAbsorbingUnderSteps : Prop :=
  ∀ (s : State) (c : Cause) (n : Nat), s.status = .fatal c →
    Host.Core.run Sys2Proof.core (n + 1) s = .next { s with result := some (.error c) }

/-- Whatever instruction a step runs, if the state after it is in Fatal(c) and the state before was not fatal, then it
is the state before the step with status Fatal(c) and the returned value Error(c): pc is still pc0, and no timer
decay, register, stack or memory write of the step remains (the spec's decision D5). A fatal condition is taken as a
next state (log 1). [derived: 40_step_cycle.md section 1 (atomicity), 60_exceptions.md section 1 (raise), decision
D5, a fatal condition as a next state: log 1] -/
def Obligations.RaisedStepDiscardsEverything : Prop :=
  ∀ (s t : State) (c : Cause), s.NotFatal → step s = .next t → t.status = .fatal c → t = s.failed c

/-- A step from Running stays Running, or goes to AwaitKey(x) only by fetching LD_VX_K with that x, or to Fatal with a
cause other than UnresolvedInput; from AwaitKey it goes to Fatal(UnresolvedInput); in Fatal(c) it stays. A fatal
condition is taken as a next state (log 1). [derived: 10_state.md section 6 (status transitions; decisions D4, D6,
D7), a fatal condition as a next state: log 1] -/
def Obligations.StatusChangesOnlyAsTheSpecSays : Prop :=
  ∀ s t : State, step s = .next t →
    (s.status = .running →
      t.status = .running ∨ (∃ x, t.status = .awaitKey x ∧ decode s.wordAtPc = .instr (.ldVxK x)) ∨
        ∃ c, c ≠ .unresolvedInput ∧ t.status = .fatal c) ∧
    (∀ x, s.status = .awaitKey x → t.status = .fatal .unresolvedInput) ∧
    (∀ c, s.status = .fatal c → t.status = .fatal c)

/-- From every state that meets the invariant, whatever the memory holds, a step gives a state that meets it: memory
lists rising addresses below 0x1000 with no entry equal to what an unlisted address reads as, pc is at most 0x1002,
and each valid stack entry lies in 0x002..0x1000. [derived: 10_state.md section 10 (ranges of pc and of the stack
entries), 20_memory.md section 4, the canonical form of memory: log 5] -/
def Obligations.StepKeepsTheInvariant : Prop :=
  ∀ s t : State, s.Inv → step s = .next t → t.Inv

/-- The reset state has canonical memory, a pc within 0..0x1002 and no valid stack entry out of range, for the default
MEM_INIT and for every other (the canonical form of memory is the model's: log 5). [derived: 10_state.md sections 8,
9 and 10, the canonical form of memory: log 5] -/
def Obligations.ResetMeetsTheInvariant : Prop :=
  State.reset.Inv ∧ ∀ memInit : Nat → Byte, (State.resetWith memInit).Inv

/-- pc = 0x200, every V is 0, I, DT and ST are 0, depth is 0, status is Running and every address reads its MEM_INIT,
for every MEM_INIT. The host's reset from any state leaves the same values in every element of the spec. The reset
state of the host interface is the one for the default MEM_INIT, 0x00 everywhere (log 5). The stack slots are not
claimed. [derived: 10_state.md sections 8 and 9 (the spec's decisions D21, D26), 70_reset_and_hazards.md section 1] -/
def Obligations.ResetLeavesTheValuesOfTheSpec : Prop :=
  State.resetWith (fun _ => 0x00) = State.reset ∧
  ∀ (memInit : Nat → Byte) (s : State), ∀ r ∈ [State.resetWith memInit, s.hostReset memInit],
    r.pc = 0x200 ∧ (∀ x, r.reg x = 0) ∧ r.I = 0 ∧ r.DT = 0 ∧ r.ST = 0 ∧ r.depth.val = 0 ∧ r.status = .running ∧
      ∀ a, a < 0x1000 → r.mem.read a = memInit a

/-- For every instruction and state exec answers a next state, and so does step: a fatal condition is a next state with
status Fatal (log 1). [derived: 40_step_cycle.md section 1 (what step returns), 60_exceptions.md section 4, the
reading of a fatal condition as a next state: log 1] -/
def Obligations.EveryStepAnswersANextState : Prop :=
  ∀ s : State, (∀ i : Instr, ∃ t, exec i s = .next t) ∧ ∃ t, step s = .next t

/-- For every step that completes: DT is one less, or still 0, unless the word at pc is LD_DT_VX; the same for ST unless
it is LD_ST_VX; an unrecognized word and LD_VX_K included (that ST decays is the spec's decision D8). [derived:
40_step_cycle.md section 1 (timer decay), 10_state.md section 5, decision D8 (ST)] -/
def Obligations.TimersDecayInEveryCompletedStep : Prop :=
  ∀ s t : State, s.CanFetch → step s = .next t → t.NotFatal →
    ((∀ x, decode s.wordAtPc ≠ .instr (.ldDtVx x)) → t.DT.toNat = s.DT.toNat - 1) ∧
    ((∀ x, decode s.wordAtPc ≠ .instr (.ldStVx x)) → t.ST.toNat = s.ST.toNat - 1)

/-- Over any number n of completed steps none of which writes DT, DT ends at its starting value less n, floored at zero:
so it is 0 after N steps from N and stays 0. The same for ST. [derived: 44_timers.md, last rule (derived by the
spec; ST by decision D8)] -/
def Obligations.TimersCountDownToZeroAndStay : Prop :=
  ∀ (n : Nat) (s t : State),
    (RunsAvoiding (fun i => ∃ x, i = .ldDtVx x) n s t → t.DT.toNat = s.DT.toNat - n) ∧
    (RunsAvoiding (fun i => ∃ x, i = .ldStVx x) n s t → t.ST.toNat = s.ST.toNat - n)

/-- For every step that completes: JP and CALL leave pc at nnn, JP_V0 at nnn + V0, RET at the entry that was on top of
the stack; a skip instruction leaves it at pc0 + 4 where its condition holds and at pc0 + 2 where it does not; every
other instruction and an unrecognized word leave it at pc0 + 2. CALL, the one instruction that reads pc, pushes pc0
+ 2. For SKP and SKNP the condition is that the full 8-bit Vx is among the pressed keys of the step's input
(decision D15, the model's holding of the keys: log 2). [derived: 10_state.md section 3, 41_control_flow.md sections
2 and 3, 45_collaborator_ops.md section 3 (decision D15), the model's holding of the keys: log 2] -/
def Obligations.PcAfterACompletedStep : Prop :=
  ∀ s t : State, s.CanFetch → step s = .next t → t.NotFatal →
    match decode s.wordAtPc with
    | .instr (.jp nnn) => t.pc.toNat = nnn.toNat
    | .instr (.call nnn) => t.pc.toNat = nnn.toNat ∧ ∀ k : Fin 16, k.val = s.depth.val → t.stack[k] = s.pc + 2
    | .instr (.jpV0 nnn) => t.pc.toNat = nnn.toNat + (s.reg 0).toNat
    | .instr .ret => ∀ k : Fin 16, k.val + 1 = s.depth.val → t.pc = s.stack[k]
    | .instr (.seImm x kk) => t.pc.toNat = s.pc.toNat + if s.reg x = kk then 4 else 2
    | .instr (.sneImm x kk) => t.pc.toNat = s.pc.toNat + if s.reg x ≠ kk then 4 else 2
    | .instr (.seReg x y) => t.pc.toNat = s.pc.toNat + if s.reg x = s.reg y then 4 else 2
    | .instr (.sneReg x y) => t.pc.toNat = s.pc.toNat + if s.reg x ≠ s.reg y then 4 else 2
    | .instr (.skp x) => t.pc.toNat = s.pc.toNat + if s.keyPressed (s.reg x) then 4 else 2
    | .instr (.sknp x) => t.pc.toNat = s.pc.toNat + if s.keyPressed (s.reg x) then 2 else 4
    | _ => t.pc.toNat = s.pc.toNat + 2

/-- A step leaves memory alone unless the word at pc is LD_B or ST_REGS, leaves I alone unless it is LD_I, ADD_I or
LD_F, and leaves the depth and every stack slot alone unless it is CALL or RET. No word is executed where the step
cannot fetch, and then nothing of these changes either: the spec's decisions D5 (the fetch raises), D7 (a step in
AwaitKey) and D6 (a step in Fatal), each ending in a next state (log 1). [derived: 10_state.md summary table,
20_memory.md section 4 (accesses per instruction), decisions D5, D6 and D7 (a step that cannot fetch), a fatal
condition as a next state: log 1] -/
def Obligations.StateElementsChangeOnlyByTheirInstructions : Prop :=
  ∀ s t : State, step s = .next t →
    ((∀ x, decode s.wordAtPc ≠ .instr (.ldB x) ∧ decode s.wordAtPc ≠ .instr (.stRegs x)) → t.mem = s.mem) ∧
    ((∀ nnn x, decode s.wordAtPc ≠ .instr (.ldI nnn) ∧ decode s.wordAtPc ≠ .instr (.addI x) ∧
      decode s.wordAtPc ≠ .instr (.ldF x)) → t.I = s.I) ∧
    ((∀ nnn, decode s.wordAtPc ≠ .instr (.call nnn) ∧ decode s.wordAtPc ≠ .instr .ret) → SameStack s t) ∧
    (¬ s.CanFetch → t.mem = s.mem ∧ t.I = s.I ∧ SameStack s t)

/-- If a register reads differently after a step, the step completed (it did not end in Fatal) and it fetched an
instruction that may write that register: Vx for the loads, the arithmetic, the logic, RND and LD_VX_DT, Vx and VF
for the five flag-writing instructions, V0 to Vx for LD_REGS. An unrecognized word and every other instruction
change no register. That a step which raises changes none, LD_REGS included, is the spec's decision D5, for a step
in AwaitKey with D7; that a step in Fatal changes none is D6. Each of these ends in a next state (log 1). [derived:
10_state.md section 1 (register accesses by instruction), 40_step_cycle.md section 1 (atomicity; decision D5),
decision D6 (a step in Fatal) and decision D7 (a step in AwaitKey), a fatal condition as a next state: log 1] -/
def Obligations.RegistersChangeOnlyByTheirInstructions : Prop :=
  ∀ (s t : State) (r : Nibble), step s = .next t → t.reg r ≠ s.reg r →
    t.NotFatal ∧ s.CanFetch ∧ ∃ i, decode s.wordAtPc = .instr i ∧ i.mayWriteReg r

/-- For every state with a free slot whose pc0 + 2 is at most 0xFFF, CALL completes, RET after it completes, and pc is
then pc0 + 2, the depth and every valid entry are as before the call. [derived: 41_control_flow.md section 2,
95_test_vectors.md T6] -/
def Obligations.CallThenReturnComesBack : Prop :=
  ∀ (s : State) (nnn : Addr12), s.depth.val < 16 → s.pc.toNat + 2 ≤ 0xFFF →
    ∃ t u, exec (.call nnn) s = .next t ∧ t.pc.toNat = nnn.toNat ∧ exec .ret t = .next u ∧ u.status = s.status ∧
      u.pc = s.pc + 2 ∧ u.depth = s.depth ∧ (∀ k : Fin 16, k.val < s.depth.val → u.stack[k] = s.stack[k]) ∧ SameRegs s u

/-- From an empty stack any sixteen calls in a row complete, with depth 16 and status unchanged; at depth 16 every call,
the seventeenth among them, raises StackOverflow, leaving the depth as it was (the spec's decision D5), and the next
step returns Error(StackOverflow) again (decision D6). The fatal condition is taken as a next state (log 1).
[derived: 60_exceptions.md sections 1 and 4 (StackOverflow; the step in Fatal, decision D6), decision D5 (what a
fatal step discards), a fatal condition as a next state: log 1] -/
def Obligations.SeventeenthNestedCallOverflows : Prop :=
  (∀ (s : State) (targets : List Addr12), s.depth.val = 0 → targets.length = 16 →
    ∃ t, execAll (targets.map .call) s = .next t ∧ t.depth.val = 16 ∧ t.status = s.status) ∧
  ∀ (t : State) (nnn : Addr12), t.depth.val = 16 →
    ∃ u, exec (.call nnn) t = .next u ∧ u.status = .fatal .stackOverflow ∧ u.result = some (.error .stackOverflow) ∧
      u.depth = t.depth ∧ ∃ v, step u = .next v ∧ v.status = .fatal .stackOverflow ∧ v.result = some (.error .stackOverflow)

/-- For every state and x with I + x at most 0xFFF: ST_REGS x completes, and from the state it leaves, with any register
contents put in, LD_REGS x completes and each of V0 to Vx is what it was before the store. [derived:
43_index_memory.md section 3 (decision D20)] -/
def Obligations.StoredRegistersAreLoadedBack : Prop :=
  ∀ (s : State) (x : Nibble), s.I.toNat + x.toNat ≤ 0xFFF →
    ∃ t, exec (.stRegs x) s = .next t ∧ ∀ V' : Vector Byte 16,
      ∃ u, exec (.ldRegs x) { t with V := V' } = .next u ∧
        ∀ r : Nibble, r.toNat ≤ x.toNat → u.reg r = s.reg r

/-- Where the step runs ST_REGS with x at least 1 and I = pc0 + 2, both bytes of the next word exist, and the word V0,
V1 decodes to an instruction, the next step runs that instruction. [derived: 20_memory.md section 6 (derived by the
spec)] -/
def Obligations.StoredInstructionIsRunByTheNextStep : Prop :=
  ∀ (s : State) (x : Nibble) (i : Instr), s.CanFetch → decode s.wordAtPc = .instr (.stRegs x) → 1 ≤ x.toNat →
    s.I = s.pc + 2 → s.I.toNat + x.toNat ≤ 0xFFF → decode (s.reg 0 ++ s.reg 1) = .instr i →
    ∃ t, step s = .next t ∧ t.pc = s.pc + 2 ∧ step t = exec i t

/-- For any two inputs of a step that runs none of RND, SKP and SKNP: if the step completes with one input it completes
with the other and gives the same state; if it ends in Fatal(c) with one input it does so with the other, and the
two states differ only in the input that waits unused. That a completed step uses up one input whether it reads it
or not, and a step that ends in Fatal uses none, is the model's choice (log 2); the latter is a next state (log 1)
that discards all else by the spec's decision D5. [derived: 00_scope.md section 4, 42_load_alu.md section 5,
45_collaborator_ops.md section 3, decisions D14, D15 and D5, each completed step uses up one input, a raised one
none: log 2, a fatal condition as a next state: log 1] -/
def Obligations.InputsMatterOnlyToThreeInstructions : Prop :=
  ∀ (s t : State) (a b : StepInput) (rest : List StepInput),
    (∀ x kk, decode s.wordAtPc ≠ .instr (.rnd x kk)) →
    (∀ x, decode s.wordAtPc ≠ .instr (.skp x) ∧ decode s.wordAtPc ≠ .instr (.sknp x)) →
    step { s with inputs := a :: rest } = .next t →
    (t.NotFatal → step { s with inputs := b :: rest } = .next t) ∧
    (∀ c, t.status = .fatal c → step { s with inputs := b :: rest } = .next { t with inputs := b :: rest })

/-- Where the step runs JP to its own address and DT = ST = 0, the state after the step differs from the one before only
in the model's own fields: the returned value, the inputs and the draw counter (logs 2 and 3). [derived:
40_step_cycle.md section 1, end of a run (derived by the spec)] -/
def Obligations.JumpToItselfIsAFixedPoint : Prop :=
  ∀ (s : State) (nnn : Addr12), s.CanFetch → decode s.wordAtPc = .instr (.jp nnn) → nnn.toNat = s.pc.toNat →
    s.DT = 0 → s.ST = 0 →
    step s = .next { s with result := some (.ok []), inputs := s.inputs.tail, draws := s.draws + 1 }

/-- For an image of at most 3584 bytes, load returns Ok, byte k of the image is at 0x200 + k, every other address reads
as before, and no other field of the state changes. [derived: 40_step_cycle.md section 2 (load; decision D22),
20_memory.md section 6] -/
def Obligations.LoadCopiesTheImage : Prop :=
  ∀ (s : State) (image : List Byte), image.length ≤ 3584 →
    ∃ m, s.loadImage image = (.ok, { s with mem := m }) ∧
      (∀ (k : Nat) (h : k < image.length), m.read (0x200 + k) = image[k]) ∧
      ∀ a, a < 0x200 ∨ 0x200 + image.length ≤ a → m.read a = s.mem.read a

/-- load of more than 3584 bytes returns LoadOverflow and leaves the whole state, status included, as it was; load of
exactly 3584 bytes returns Ok with byte k of the image at 0x200 + k. [stated: R198] -/
def Obligations.LoadOverflowChangesNothing : Prop :=
  ∀ (s : State) (image : List Byte),
    (3584 < image.length → s.loadImage image = (.loadOverflow, s)) ∧
    (image.length = 3584 → (s.loadImage image).1 = .ok ∧
      ∀ (k : Nat) (h : k < image.length), (s.loadImage image).2.mem.read (0x200 + k) = image[k])

/-- In AwaitKey(x), supply_key(K) leaves Vx = K unmodified, every other register as before, status Running, and pc, I,
the timers, the stack, memory and everything else unchanged. In Running and in Fatal it changes nothing. [derived:
40_step_cycle.md section 2 (supply_key; decisions D7 and D16)] -/
def Obligations.SupplyKeyDeliversOnlyWhenAwaited : Prop :=
  ∀ (s : State) (K : Byte),
    (∀ x, s.status = .awaitKey x →
      ∃ V', s.supplyKey K = { s with V := V', status := .running } ∧
        ∀ r, (s.supplyKey K).reg r = if r = x then K else s.reg r) ∧
    ((∀ x, s.status ≠ .awaitKey x) → s.supplyKey K = s)

/-- The snapshot transaction leaves the state as it is and returns 4096 bytes, byte a being the one at address a.
[derived: 40_step_cycle.md section 2 (snapshot; decision D27)] -/
def Obligations.SnapshotIsTheWholeMemory : Prop :=
  ∀ (memInit : Nat → Byte) (s : State), ∃ bytes : List Byte, s.transact memInit .snapshot = .next (s, .memory bytes) ∧ bytes.length = 4096 ∧
    ∀ a, a < 4096 → bytes[a]? = some (s.mem.read a)

/-- From Fatal(c), any number of loads, steps, key deliveries and snapshots in any order ends in Fatal(c) with the same
cause, and with every register, I, pc, the timers and the stack as they were; one reset ends Running (the spec's
decision D6). A step in Fatal(c) answers a next state (log 1). [derived: 60_exceptions.md section 4 (decision D6),
10_state.md section 6, a step in Fatal as a next state: log 1] -/
def Obligations.FatalIsLeftOnlyByReset : Prop :=
  ∀ (memInit : Nat → Byte) (s : State) (c : Cause), s.status = .fatal c →
    (∀ txs : List Transaction, (∀ x ∈ txs, x ≠ .reset) →
      ∃ t, s.transactAll memInit txs = .next t ∧ t.status = .fatal c ∧ t.V = s.V ∧ t.I = s.I ∧ t.pc = s.pc ∧ t.DT = s.DT ∧
        t.ST = s.ST ∧ t.stack = s.stack ∧ t.depth = s.depth) ∧
    ∃ t, s.transactAll memInit [.reset] = .next t ∧ t.status = .running

/-- From every state that meets the invariant, any sequence of resets (to any MEM_INIT), loads, steps with any inputs,
key deliveries and snapshots ends in a state that meets it. [derived: 40_step_cycle.md section 2, 10_state.md
section 10, the canonical form of memory: log 5] -/
def Obligations.TransactionsKeepTheInvariant : Prop :=
  ∀ (memInit : Nat → Byte) (txs : List Transaction) (s t : State), s.Inv → s.transactAll memInit txs = .next t → t.Inv

/-- For every Running state, register and key: LD_VX_K completes, and after it any number of loads and snapshots, none
included, leave the core in AwaitKey(x) with no register changed; supply_key then gives Running with Vx = K, the
other registers as before the wait, pc = pc0 + 2, and the timers decayed once and no more. (A step during the wait
is fatal: StepThatCannotFetchIsFatal. That loads are permitted then is the spec's decision D22.) That ST decays in
the step too is the spec's decision D8. [derived: 45_collaborator_ops.md section 4, 44_timers.md, last rule,
60_exceptions.md section 8 (decision D7), 40_step_cycle.md section 2 (decisions D22, D27), decision D8 (the decay of
ST)] -/
def Obligations.KeyWaitHoldsUntilTheKeyIsDelivered : Prop :=
  ∀ (memInit : Nat → Byte) (s : State) (x : Nibble) (K : Byte) (txs : List Transaction), s.status = .running →
    (∀ y ∈ txs, (∃ bytes, y = .load bytes) ∨ y = .snapshot) →
    ∃ t u, exec (.ldVxK x) s = .next t ∧ t.transactAll memInit txs = .next u ∧ u.status = .awaitKey x ∧ SameRegs s u ∧
      (u.supplyKey K).status = .running ∧ (∀ r, (u.supplyKey K).reg r = if r = x then K else s.reg r) ∧
      (u.supplyKey K).pc = s.pc + 2 ∧ TimersDecayed s (u.supplyKey K)

/-- From any state and for any MEM_INIT, reset then load of an image of 2 to 3584 bytes returns Ok with pc = 0x200 and
status Running, and the next step runs the instruction its first two bytes decode to. [derived:
70_reset_and_hazards.md sections 1 and 2 (decision D21)] -/
def Obligations.BootedImageRunsFromItsFirstWord : Prop :=
  ∀ (memInit : Nat → Byte) (s : State) (hi lo : Byte) (rest : List Byte) (i : Instr), rest.length + 2 ≤ 3584 → decode (hi ++ lo) = .instr i →
    ∃ t, s.boot memInit (hi :: lo :: rest) = (.ok, t) ∧ t.pc = 0x200 ∧ t.status = .running ∧ step t = exec i t

/-- For every state and operands both complete: pc is pc0 + 2, Vx holds kk or the old Vy, every other register (VF
unless it is Vx), I, the stack and memory are as before, the timers have decayed by the step itself, no event. That
ST decays in the step too is the spec's decision D8. That the step uses up its input (log 2) and where its returned
value stands (log 3) are the model's choices. [derived: 42_load_alu.md section 2, decision D8 (the decay of ST), the
input and the returned value in the state: logs 2 and 3] -/
def Obligations.RegisterLoadsWriteOnlyVx : Prop :=
  ∀ (s : State) (x y : Nibble) (kk : Byte),
    (∃ t, exec (.ldImm x kk) s = .next t ∧ RegisterStep s t (s.pc + 2) (fun r => if r = x then kk else s.reg r)) ∧
    (∃ t, exec (.ldReg x y) s = .next t ∧ RegisterStep s t (s.pc + 2) (fun r => if r = x then s.reg y else s.reg r))

/-- For every state and operands ADD_IMM completes: Vx holds (Vx + kk) mod 256, every other register, VF included unless
it is Vx, I, the stack and memory are as before, pc is pc0 + 2, no event. That ST decays in the step too is the
spec's decision D8. That the step uses up its input (log 2) and where its returned value stands (log 3) are the
model's choices. [derived: 42_load_alu.md sections 1 and 2, decision D8 (the decay of ST), the input and the
returned value in the state: logs 2 and 3] -/
def Obligations.AddImmediateWrapsWithoutFlag : Prop :=
  ∀ (s : State) (x : Nibble) (kk : Byte),
    ∃ t, exec (.addImm x kk) s = .next t ∧
      RegisterStep s t (s.pc + 2) (fun r => if r = x then BitVec.ofNat 8 (((s.reg x).toNat + kk.toNat) % 256) else s.reg r)

/-- For every state and operands each completes: Vx holds Vx OR Vy, Vx AND Vy or Vx XOR Vy, bit by bit; every other
register, VF included unless it is Vx, I, the stack and memory are as before, pc is pc0 + 2, no event. That ST
decays in the step too is the spec's decision D8. That the step uses up its input (log 2) and where its returned
value stands (log 3) are the model's choices. [derived: 42_load_alu.md section 3, decision D8 (the decay of ST), the
input and the returned value in the state: logs 2 and 3] -/
def Obligations.LogicOpsWriteOnlyVx : Prop :=
  ∀ (s : State) (x y : Nibble),
    (∃ t, exec (.or x y) s = .next t ∧ RegisterStep s t (s.pc + 2) (fun r => if r = x then s.reg x ||| s.reg y else s.reg r)) ∧
    (∃ t, exec (.and x y) s = .next t ∧ RegisterStep s t (s.pc + 2) (fun r => if r = x then s.reg x &&& s.reg y else s.reg r)) ∧
    (∃ t, exec (.xor x y) s = .next t ∧ RegisterStep s t (s.pc + 2) (fun r => if r = x then s.reg x ^^^ s.reg y else s.reg r))

/-- For every state and operands ADD_REG completes: VF is 1 if the old Vx + Vy exceeds 255 and 0 otherwise; Vx, unless
it is VF, is the sum modulo 256; both from the old values, also when x = y or y = 0xF; every other register, I, the
stack and memory are as before, pc is pc0 + 2. What holds for x = 0xF or y = 0xF is the spec's decision D11. That ST
decays in the step too is the spec's decision D8. That the step uses up its input (log 2) and where its returned
value stands (log 3) are the model's choices. [derived: 42_load_alu.md section 4, decision D11 (x = 0xF or y = 0xF),
decision D8 (the decay of ST), the input and the returned value in the state: logs 2 and 3] -/
def Obligations.AddRegistersSetsTheCarry : Prop :=
  ∀ (s : State) (x y : Nibble),
    ∃ t, exec (.addReg x y) s = .next t ∧
      RegisterStep s t (s.pc + 2) (fun r =>
        if r = 0xF then (if 255 < (s.reg x).toNat + (s.reg y).toNat then 1 else 0)
        else if r = x then s.reg x + s.reg y else s.reg r)

/-- For every state and operands both complete. SUB: VF is 1 if the old Vx is strictly greater than the old Vy, else 0,
equality included; Vx is (Vx - Vy) mod 256. SUBN: the same with Vx and Vy exchanged. With x = 0xF the register ends
holding the difference. Every other register, I, the stack and memory are as before, pc is pc0 + 2. What holds for x
= 0xF or y = 0xF is the spec's decision D11. That ST decays in the step too is the spec's decision D8. That the step
uses up its input (log 2) and where its returned value stands (log 3) are the model's choices. [derived:
42_load_alu.md section 4, decision D11 (x = 0xF or y = 0xF), decision D8 (the decay of ST), the input and the
returned value in the state: logs 2 and 3] -/
def Obligations.SubtractsSetTheStrictlyGreaterFlag : Prop :=
  ∀ (s : State) (x y : Nibble),
    (∃ t, exec (.sub x y) s = .next t ∧
      RegisterStep s t (s.pc + 2) (fun r =>
        if r = x then s.reg x - s.reg y
        else if r = 0xF then (if (s.reg y).toNat < (s.reg x).toNat then 1 else 0) else s.reg r)) ∧
    (∃ t, exec (.subn x y) s = .next t ∧
      RegisterStep s t (s.pc + 2) (fun r =>
        if r = x then s.reg y - s.reg x
        else if r = 0xF then (if (s.reg x).toNat < (s.reg y).toNat then 1 else 0) else s.reg r))

/-- For every state and operands, y included, both complete. SHR: VF is the low bit of the old Vx, Vx is the old Vx
halved. SHL: VF is 1 if the old Vx is 128 or more, else 0, Vx is the double of the old Vx modulo 256. With x = 0xF
the register ends holding the shifted value. Every other register, I, the stack and memory are as before, pc is pc0
+ 2. What holds for x = 0xF is the spec's decision D11. That ST decays in the step too is the spec's decision D8.
That the step uses up its input (log 2) and where its returned value stands (log 3) are the model's choices.
[derived: 42_load_alu.md section 4, decision D11 (x = 0xF), decision D8 (the decay of ST), the input and the
returned value in the state: logs 2 and 3] -/
def Obligations.ShiftsMoveVxAndCatchTheLostBit : Prop :=
  ∀ (s : State) (x y : Nibble),
    (∃ t, exec (.shr x y) s = .next t ∧
      RegisterStep s t (s.pc + 2) (fun r =>
        if r = x then BitVec.ofNat 8 ((s.reg x).toNat / 2)
        else if r = 0xF then BitVec.ofNat 8 ((s.reg x).toNat % 2) else s.reg r)) ∧
    (∃ t, exec (.shl x y) s = .next t ∧
      RegisterStep s t (s.pc + 2) (fun r =>
        if r = x then BitVec.ofNat 8 ((s.reg x).toNat * 2 % 256)
        else if r = 0xF then (if 128 ≤ (s.reg x).toNat then 1 else 0) else s.reg r))

/-- For every state and operands RND completes: Vx is the random byte of the step's input AND kk, where the input is the
first the host handed over or, with none, the free draw of that step (log 2); with kk = 0 it is 0. Every other
register, I, the stack and memory are as before, pc is pc0 + 2. That ST decays in the step too is the spec's
decision D8. That the step uses up its input (log 2) and where its returned value stands (log 3) are the model's
choices. [derived: 42_load_alu.md section 5 (decision D14), 00_scope.md section 4, the model's holding of the input:
log 2, decision D8 (the decay of ST), the input and the returned value in the state: logs 2 and 3] -/
def Obligations.RandomIsMaskedByTheImmediate : Prop :=
  ∀ (s : State) (x : Nibble) (kk : Byte),
    ∃ t, exec (.rnd x kk) s = .next t ∧
      RegisterStep s t (s.pc + 2) (fun r =>
        if r = x then
          (match s.inputs with | [] => (Config.stepInput s.draws).rand | a :: _ => a.rand) &&& kk
        else s.reg r) ∧
      (kk = 0 → t.reg x = 0)

/-- For every state and operands each completes: pc is pc0 + 4 if Vx = kk (SE_IMM), Vx != kk (SNE_IMM), Vx = Vy
(SE_REG), Vx != Vy (SNE_REG), else pc0 + 2; no register, I, stack or memory changes, no event. That ST decays in the
step too is the spec's decision D8. That the step uses up its input (log 2) and where its returned value stands (log
3) are the model's choices. [derived: 41_control_flow.md section 3, decision D8 (the decay of ST), the input and the
returned value in the state: logs 2 and 3] -/
def Obligations.RegisterSkipsTestTheirCondition : Prop :=
  ∀ (s : State) (x y : Nibble) (kk : Byte),
    (∃ t, exec (.seImm x kk) s = .next t ∧ RegisterStep s t (if s.reg x = kk then s.pc + 4 else s.pc + 2) s.reg) ∧
    (∃ t, exec (.sneImm x kk) s = .next t ∧ RegisterStep s t (if s.reg x = kk then s.pc + 2 else s.pc + 4) s.reg) ∧
    (∃ t, exec (.seReg x y) s = .next t ∧ RegisterStep s t (if s.reg x = s.reg y then s.pc + 4 else s.pc + 2) s.reg) ∧
    (∃ t, exec (.sneReg x y) s = .next t ∧ RegisterStep s t (if s.reg x = s.reg y then s.pc + 2 else s.pc + 4) s.reg)

/-- For every state and address JP completes: pc is nnn, 0xFFF included; no register, I, stack or memory changes, no
event. That ST decays in the step too is the spec's decision D8. That the step uses up its input (log 2) and where
its returned value stands (log 3) are the model's choices. [derived: 41_control_flow.md section 2, decision D8 (the
decay of ST), the input and the returned value in the state: logs 2 and 3] -/
def Obligations.JumpGoesToItsAddress : Prop :=
  ∀ (s : State) (nnn : Addr12),
    ∃ t, exec (.jp nnn) s = .next t ∧ t.pc.toNat = nnn.toNat ∧ RegisterStep s t (nnn.setWidth 16) s.reg

/-- With fewer than 16 entries CALL completes: the slot at the old depth holds pc0 + 2, every other slot is as before,
depth is one more, pc is nnn, no register, I or memory changes. With 16 entries it raises StackOverflow: nothing is
pushed and pc is still pc0. A call at 0xFFE pushes 0x1000 without complaint. That ST decays in the step too is the
spec's decision D8. That the step uses up its input (log 2) and where its returned value stands (log 3) are the
model's choices. That a fatal step discards all else is the spec's decision D5. A fatal condition is taken as a next
state (log 1). [derived: 41_control_flow.md section 2, decision D8 (the decay of ST), the input and the returned
value in the state: logs 2 and 3, decision D5 (what a fatal step discards), a fatal condition as a next state: log
1] -/
def Obligations.CallPushesTheNextAddress : Prop :=
  ∀ (s : State) (nnn : Addr12),
    (s.depth.val < 16 →
      ∃ t, exec (.call nnn) s = .next t ∧ t.pc.toNat = nnn.toNat ∧ t.depth.val = s.depth.val + 1 ∧
        (∀ k : Fin 16, t.stack[k] = if k.val = s.depth.val then s.pc + 2 else s.stack[k]) ∧
        (s.pc = 0xFFE → ∀ k : Fin 16, k.val = s.depth.val → t.stack[k] = 0x1000) ∧
        SameRegs s t ∧ t.I = s.I ∧ SameMem s t ∧ CompletedStep s t []) ∧
    (s.depth.val = 16 → exec (.call nnn) s = .next (s.failed .stackOverflow))

/-- With an entry of at most 0xFFF on top RET completes: pc is that entry, depth is one less, every slot keeps its
content, no register, I or memory changes. With an empty stack it raises StackUnderflow; with a top entry above
0xFFF it raises OutOfBounds and the depth stays (the spec's decisions D9 and D5). That ST decays in the step too is
the spec's decision D8. That the step uses up its input (log 2) and where its returned value stands (log 3) are the
model's choices. A fatal condition is taken as a next state (log 1). [derived: 41_control_flow.md sections 1 and 2
(decision D9 for the bound), 60_exceptions.md section 3 (decision D25 for the order), decision D5, decision D8 (the
decay of ST), the input and the returned value in the state: logs 2 and 3, a fatal condition as a next state: log 1] -/
def Obligations.ReturnPopsTheTopEntry : Prop :=
  ∀ s : State,
    (∀ k : Fin 16, k.val + 1 = s.depth.val → s.stack[k].toNat ≤ 0xFFF →
      ∃ t, exec .ret s = .next t ∧ t.pc = s.stack[k] ∧ t.depth.val + 1 = s.depth.val ∧
        (∀ j : Fin 16, t.stack[j] = s.stack[j]) ∧ SameRegs s t ∧ t.I = s.I ∧ SameMem s t ∧ CompletedStep s t []) ∧
    (∀ k : Fin 16, k.val + 1 = s.depth.val → 0xFFF < s.stack[k].toNat → exec .ret s = .next (s.failed .outOfBounds)) ∧
    (s.depth.val = 0 → exec .ret s = .next (s.failed .stackUnderflow))

/-- Where nnn + V0 is at most 0xFFF JP_V0 completes with pc at that sum, whatever the upper digit of nnn, and no
register, I, stack or memory changes; above 0xFFF it raises OutOfBounds (the spec's decision D9). That ST decays in
the step too is the spec's decision D8. That the step uses up its input (log 2) and where its returned value stands
(log 3) are the model's choices. That a fatal step discards all else is the spec's decision D5. A fatal condition is
taken as a next state (log 1). [derived: 41_control_flow.md sections 1 and 2 (decision D9 for the fault), decision
D8 (the decay of ST), the input and the returned value in the state: logs 2 and 3, decision D5 (what a fatal step
discards), a fatal condition as a next state: log 1] -/
def Obligations.IndexedJumpAddsV0WithoutWrap : Prop :=
  ∀ (s : State) (nnn : Addr12),
    (nnn.toNat + (s.reg 0).toNat ≤ 0xFFF →
      ∃ t, exec (.jpV0 nnn) s = .next t ∧ t.pc.toNat = nnn.toNat + (s.reg 0).toNat ∧ RegisterStep s t t.pc s.reg) ∧
    (0xFFF < nnn.toNat + (s.reg 0).toNat → exec (.jpV0 nnn) s = .next (s.failed .outOfBounds))

/-- For every state and address LD_I completes: I is nnn, pc is pc0 + 2, no register, stack or memory changes, no event.
That ST decays in the step too is the spec's decision D8. That the step uses up its input (log 2) and where its
returned value stands (log 3) are the model's choices. [derived: 43_index_memory.md section 2, decision D8 (the
decay of ST), the input and the returned value in the state: logs 2 and 3] -/
def Obligations.LoadIndexWritesTheAddress : Prop :=
  ∀ (s : State) (nnn : Addr12),
    ∃ t, exec (.ldI nnn) s = .next t ∧ t.I.toNat = nnn.toNat ∧ t.pc = s.pc + 2 ∧ SameRegs s t ∧ SameStack s t ∧
      SameMem s t ∧ CompletedStep s t []

/-- Where I + Vx is at most 0xFFFF ADD_I completes with I at the sum, values above 0xFFF included, VF and every other
register unchanged; above 0xFFFF it raises OutOfBounds (the spec's decision D18). That ST decays in the step too is
the spec's decision D8. That the step uses up its input (log 2) and where its returned value stands (log 3) are the
model's choices. That a fatal step discards all else is the spec's decision D5. A fatal condition is taken as a next
state (log 1). [derived: 43_index_memory.md section 2 (decision D18), decision D8 (the decay of ST), the input and
the returned value in the state: logs 2 and 3, decision D5 (what a fatal step discards), a fatal condition as a next
state: log 1] -/
def Obligations.AddIndexIsFatalPastSixteenBits : Prop :=
  ∀ (s : State) (x : Nibble),
    (s.I.toNat + (s.reg x).toNat ≤ 0xFFFF →
      ∃ t, exec (.addI x) s = .next t ∧ t.I.toNat = s.I.toNat + (s.reg x).toNat ∧ t.pc = s.pc + 2 ∧ SameRegs s t ∧
        SameStack s t ∧ SameMem s t ∧ CompletedStep s t []) ∧
    (0xFFFF < s.I.toNat + (s.reg x).toNat → exec (.addI x) s = .next (s.failed .outOfBounds))

/-- For every state and x LD_F completes: I as a number is the font base plus the stride times Vx, with no masking of Vx
and no wrap, for the platform's open parameters (log 6); no register, stack or memory changes, pc is pc0 + 2. That
ST decays in the step too is the spec's decision D8. That the step uses up its input (log 2) and where its returned
value stands (log 3) are the model's choices. [derived: 43_index_memory.md section 2 (decision D17), the open font
parameters: log 6, decision D8 (the decay of ST), the input and the returned value in the state: logs 2 and 3] -/
def Obligations.FontAddressIsNeverTruncated : Prop :=
  ∀ (s : State) (x : Nibble),
    ∃ t, exec (.ldF x) s = .next t ∧ t.I.toNat = Config.font.base + Config.font.stride * (s.reg x).toNat ∧
      t.pc = s.pc + 2 ∧ SameRegs s t ∧ SameStack s t ∧ SameMem s t ∧ CompletedStep s t []

/-- With I at most 0xFFD LD_B completes: the three bytes from I are Vx / 100, Vx / 10 mod 10 and Vx mod 10, every other
address reads as before, I, the registers and the stack are unchanged, pc is pc0 + 2. With I above 0xFFD it raises
OutOfBounds and nothing is stored. That ST decays in the step too is the spec's decision D8. That the step uses up
its input (log 2) and where its returned value stands (log 3) are the model's choices. That a fatal step discards
all else is the spec's decision D5. A fatal condition is taken as a next state (log 1). [derived: 43_index_memory.md
section 3, decision D8 (the decay of ST), the input and the returned value in the state: logs 2 and 3, decision D5
(what a fatal step discards), a fatal condition as a next state: log 1] -/
def Obligations.DecimalDigitsAreStoredAtI : Prop :=
  ∀ (s : State) (x : Nibble),
    (s.I.toNat ≤ 0xFFD →
      ∃ t, exec (.ldB x) s = .next t ∧ (t.mem.read s.I.toNat).toNat = (s.reg x).toNat / 100 ∧
        (t.mem.read (s.I.toNat + 1)).toNat = (s.reg x).toNat / 10 % 10 ∧
        (t.mem.read (s.I.toNat + 2)).toNat = (s.reg x).toNat % 10 ∧
        (∀ a, a < s.I.toNat ∨ s.I.toNat + 3 ≤ a → t.mem.read a = s.mem.read a) ∧
        t.pc = s.pc + 2 ∧ SameRegs s t ∧ t.I = s.I ∧ SameStack s t ∧ CompletedStep s t []) ∧
    (0xFFD < s.I.toNat → exec (.ldB x) s = .next (s.failed .outOfBounds))

/-- With I + x at most 0xFFF ST_REGS completes: for k from 0 to x the byte at I + k is V[k], every other address reads
as before, I, the registers and the stack are unchanged, pc is pc0 + 2. Above 0xFFF it raises OutOfBounds and
nothing is stored. That ST decays in the step too is the spec's decision D8. That the step uses up its input (log 2)
and where its returned value stands (log 3) are the model's choices. That a fatal step discards all else is the
spec's decision D5. A fatal condition is taken as a next state (log 1). [derived: 43_index_memory.md section 3
(decision D20), decision D8 (the decay of ST), the input and the returned value in the state: logs 2 and 3, decision
D5 (what a fatal step discards), a fatal condition as a next state: log 1] -/
def Obligations.RegisterBlockIsStoredAtI : Prop :=
  ∀ (s : State) (x : Nibble),
    (s.I.toNat + x.toNat ≤ 0xFFF →
      ∃ t, exec (.stRegs x) s = .next t ∧
        (∀ r : Nibble, r.toNat ≤ x.toNat → t.mem.read (s.I.toNat + r.toNat) = s.reg r) ∧
        (∀ a, a < s.I.toNat ∨ s.I.toNat + x.toNat < a → t.mem.read a = s.mem.read a) ∧
        t.pc = s.pc + 2 ∧ SameRegs s t ∧ t.I = s.I ∧ SameStack s t ∧ CompletedStep s t []) ∧
    (0xFFF < s.I.toNat + x.toNat → exec (.stRegs x) s = .next (s.failed .outOfBounds))

/-- With I + x at most 0xFFF LD_REGS completes: V[r] is the byte at I + r for r up to x, the registers above x, I,
memory and the stack are unchanged, pc is pc0 + 2. Above 0xFFF it raises OutOfBounds and no register changes. That
ST decays in the step too is the spec's decision D8. That the step uses up its input (log 2) and where its returned
value stands (log 3) are the model's choices. That a fatal step discards all else is the spec's decision D5. A fatal
condition is taken as a next state (log 1). [derived: 43_index_memory.md section 3 (decision D20), decision D8 (the
decay of ST), the input and the returned value in the state: logs 2 and 3, decision D5 (what a fatal step discards),
a fatal condition as a next state: log 1] -/
def Obligations.RegisterBlockIsLoadedFromI : Prop :=
  ∀ (s : State) (x : Nibble),
    (s.I.toNat + x.toNat ≤ 0xFFF →
      ∃ t, exec (.ldRegs x) s = .next t ∧
        RegisterStep s t (s.pc + 2) (fun r => if r.toNat ≤ x.toNat then s.mem.read (s.I.toNat + r.toNat) else s.reg r)) ∧
    (0xFFF < s.I.toNat + x.toNat → exec (.ldRegs x) s = .next (s.failed .outOfBounds))

/-- For every state and x the three complete with pc at pc0 + 2 and I, the stack and memory as before. LD_VX_DT leaves
in Vx what DT is after this step's decay. LD_DT_VX leaves DT = Vx exactly and LD_ST_VX leaves ST = Vx exactly, the
other timer decayed, no register changed. That ST decays in the step too is the spec's decision D8. That the step
uses up its input (log 2) and where its returned value stands (log 3) are the model's choices. [derived:
44_timers.md, decision D8 (the decay of ST), the input and the returned value in the state: logs 2 and 3] -/
def Obligations.TimerInstructionsComeAfterTheDecay : Prop :=
  ∀ (s : State) (x : Nibble),
    (∃ t, exec (.ldVxDt x) s = .next t ∧
      RegisterStep s t (s.pc + 2) (fun r => if r = x then (if s.DT = 0 then 0 else s.DT - 1) else s.reg r)) ∧
    (∃ t, exec (.ldDtVx x) s = .next t ∧ t.DT = s.reg x ∧ t.ST = (if s.ST = 0 then 0 else s.ST - 1) ∧
      t.pc = s.pc + 2 ∧ SameRegs s t ∧ t.I = s.I ∧ SameStack s t ∧ SameMem s t ∧ t.status = s.status ∧ Returned s t []) ∧
    (∃ t, exec (.ldStVx x) s = .next t ∧ t.ST = s.reg x ∧ t.DT = (if s.DT = 0 then 0 else s.DT - 1) ∧
      t.pc = s.pc + 2 ∧ SameRegs s t ∧ t.I = s.I ∧ SameStack s t ∧ SameMem s t ∧ t.status = s.status ∧ Returned s t [])

/-- For every state CLS completes: the one event is DisplayClear, pc is pc0 + 2, the timers have decayed by the step
itself, no register, I, stack or memory changes. That ST decays in the step too is the spec's decision D8. That the
step uses up its input (log 2) and where its returned value stands (log 3) are the model's choices. [derived:
45_collaborator_ops.md section 2, decision D8 (the decay of ST), the input and the returned value in the state: logs
2 and 3] -/
def Obligations.ClearRequestChangesNoState : Prop :=
  ∀ s : State,
    ∃ t, exec .cls s = .next t ∧ t.pc = s.pc + 2 ∧ SameRegs s t ∧ t.I = s.I ∧ SameStack s t ∧ SameMem s t ∧
      CompletedStep s t [.displayClear]

/-- Where n is 0 or I + n - 1 is at most 0xFFF DRW completes: the one event is DisplayDraw with Vx, Vy, n and the n
bytes from I in order, none for n = 0; VF and every register, I, memory and the stack are unchanged, pc is pc0 + 2.
Otherwise it raises OutOfBounds (the spec's decision D19). That ST decays in the step too is the spec's decision D8.
That the step uses up its input (log 2) and where its returned value stands (log 3) are the model's choices. That a
fatal step discards all else is the spec's decision D5. A fatal condition is taken as a next state (log 1).
[derived: 45_collaborator_ops.md section 2 (decision D19), decision D8 (the decay of ST), the input and the returned
value in the state: logs 2 and 3, decision D5 (what a fatal step discards), a fatal condition as a next state: log
1] -/
def Obligations.DrawRequestCarriesTheSpriteBytes : Prop :=
  ∀ (s : State) (x y n : Nibble),
    (n.toNat = 0 ∨ s.I.toNat + n.toNat - 1 ≤ 0xFFF →
      ∃ t rows, exec (.drw x y n) s = .next t ∧ rows.length = n.toNat ∧
        (∀ k, k < n.toNat → rows[k]? = some (s.mem.read (s.I.toNat + k))) ∧ t.pc = s.pc + 2 ∧ SameRegs s t ∧
        t.I = s.I ∧ SameStack s t ∧ SameMem s t ∧ CompletedStep s t [.displayDraw (s.reg x) (s.reg y) n rows]) ∧
    (0 < n.toNat → 0xFFF < s.I.toNat + n.toNat - 1 → exec (.drw x y n) s = .next (s.failed .outOfBounds))

/-- For every state and x, with the pressed keys of the step's input (the first the host handed over or, with none, the
free draw: log 2): SKP leaves pc at pc0 + 4 if the full 8-bit Vx is among them, else pc0 + 2; SKNP the other way
round; no register, I, stack or memory changes. That ST decays in the step too is the spec's decision D8. That the
step uses up its input (log 2) and where its returned value stands (log 3) are the model's choices. [derived:
45_collaborator_ops.md section 3 (decision D15), the model's holding of the keys: log 2, decision D8 (the decay of
ST), the input and the returned value in the state: logs 2 and 3] -/
def Obligations.KeySkipsAskForTheFullKeyNumber : Prop :=
  ∀ (s : State) (x : Nibble),
    let pressed := match s.inputs with | [] => (Config.stepInput s.draws).pressed | a :: _ => a.pressed
    (∃ t, exec (.skp x) s = .next t ∧ RegisterStep s t (if s.reg x ∈ pressed then s.pc + 4 else s.pc + 2) s.reg) ∧
    (∃ t, exec (.sknp x) s = .next t ∧ RegisterStep s t (if s.reg x ∈ pressed then s.pc + 2 else s.pc + 4) s.reg)

/-- For every state and x LD_VX_K completes: status is AwaitKey(x), pc is pc0 + 2, the timers have decayed, no register,
Vx included, I, stack or memory changes, no event. That ST decays in the step too is the spec's decision D8. That
the step uses up its input (log 2) and where its returned value stands (log 3) are the model's choices. [derived:
45_collaborator_ops.md section 4 (decision D7), decision D8 (the decay of ST), the input and the returned value in
the state: logs 2 and 3] -/
def Obligations.KeyWaitCompletesItsStep : Prop :=
  ∀ (s : State) (x : Nibble),
    ∃ t, exec (.ldVxK x) s = .next t ∧ t.status = .awaitKey x ∧ t.pc = s.pc + 2 ∧ TimersDecayed s t ∧ SameRegs s t ∧
      t.I = s.I ∧ SameStack s t ∧ SameMem s t ∧ Returned s t []

/-- Where the core is Running and both bytes at pc exist, let w be the word mem[pc] * 256 + mem[pc + 1], pc being the
one before the advance: the step runs w, as the instruction it decodes to or as an unrecognized word. For every
image load accepts and every k whose word lies in it, byte 2k of the image is the high byte and byte 2k + 1 the low
byte of the k-th word, read at 0x200 + 2k. [stated: R41] -/
def Obligations.FetchIsBigEndian : Prop :=
  (∀ (s : State) (w : Word), s.CanFetch →
    w.toNat = (s.mem.read s.pc.toNat).toNat * 256 + (s.mem.read (s.pc.toNat + 1)).toNat →
    (∀ i, decode w = .instr i → step s = exec i s) ∧ (∀ u, decode w = .unrecognized u → step s = execUnrecognized w s)) ∧
  ∀ (s : State) (image : List Byte) (k : Nat) (h : 2 * k + 1 < image.length), image.length ≤ 3584 →
    (({ (s.loadImage image).2 with pc := BitVec.ofNat 16 (0x200 + 2 * k) } : State).wordAtPc).toNat =
      (image[2 * k]).toNat * 256 + (image[2 * k + 1]).toNat

end
end

