-- ==== Sys2Proof/Laws/Decode.lean ====
section
/-! SUPPORT. The fields of a word that is written as the concatenation of its operands (the layouts A, I, R, D and X of R61),
and what a mask of R66 leaves of it. -/

namespace Sys2Proof

/-! ## Layout A: a family and 12 bits -/

theorem family_layoutA (f : Nibble) (nnn : Addr12) : family (f ++ nnn) = f := by
  show BitVec.extractLsb' 12 4 (f ++ nnn : BitVec (4 + 12)) = f
  exact BitVec.extractLsb'_append_eq_left

theorem fieldNNN_layoutA (f : Nibble) (nnn : Addr12) : fieldNNN (f ++ nnn) = nnn := by
  show BitVec.extractLsb' 0 12 (f ++ nnn : BitVec (4 + 12)) = nnn
  exact BitVec.extractLsb'_append_eq_right

/-! ## Layouts I and X: a family, a register and a byte -/

theorem family_layoutI (f x : Nibble) (kk : Byte) : family (f ++ x ++ kk) = f := by
  apply BitVec.eq_of_getLsbD_eq
  intro i hi
  show (BitVec.extractLsb' 12 4 (f ++ x ++ kk : BitVec (4 + 4 + 8))).getLsbD i = _
  simp only [BitVec.getLsbD_extractLsb', BitVec.getLsbD_append]
  have h : ¬ 12 + i < 8 := by omega
  have h' : ¬ 12 + i - 8 < 4 := by omega
  have e : 12 + i - 8 - 4 = i := by omega
  simp [hi, h, h', e]

theorem fieldX_layoutI (f x : Nibble) (kk : Byte) : fieldX (f ++ x ++ kk) = x := by
  apply BitVec.eq_of_getLsbD_eq
  intro i hi
  show (BitVec.extractLsb' 8 4 (f ++ x ++ kk : BitVec (4 + 4 + 8))).getLsbD i = _
  simp only [BitVec.getLsbD_extractLsb', BitVec.getLsbD_append]
  have h : ¬ 8 + i < 8 := by omega
  have h' : 8 + i - 8 < 4 := by omega
  have e : 8 + i - 8 = i := by omega
  simp [hi, h, e]

theorem fieldKK_layoutI (f x : Nibble) (kk : Byte) : fieldKK (f ++ x ++ kk) = kk := by
  show BitVec.extractLsb' 0 8 (f ++ x ++ kk : BitVec (4 + 4 + 8)) = kk
  exact BitVec.extractLsb'_append_eq_right

/-! ## Layouts R and D: four nibbles -/

theorem layoutR_eq_layoutI (f x y n : Nibble) : (f ++ x ++ y ++ n : Word) = f ++ x ++ (y ++ n : Byte) := by
  apply BitVec.eq_of_getLsbD_eq
  intro i hi
  show (f ++ x ++ y ++ n : BitVec (4 + 4 + 4 + 4)).getLsbD i =
    (f ++ x ++ (y ++ n : BitVec (4 + 4)) : BitVec (4 + 4 + (4 + 4))).getLsbD i
  simp only [BitVec.getLsbD_append]
  by_cases h1 : i < 4
  · have : i < 4 + 4 := by omega
    simp [h1, this]
  · by_cases h2 : i < 8
    · have a : i - 4 < 4 := by omega
      have b : i < 4 + 4 := by omega
      simp [h1, a, b]
    · have a : ¬ i - 4 < 4 := by omega
      have b : ¬ i < 4 + 4 := by omega
      have c : i - 4 - 4 = i - (4 + 4) := by omega
      simp [h1, a, b, c]

theorem family_layoutR (f x y n : Nibble) : family (f ++ x ++ y ++ n) = f := by
  rw [layoutR_eq_layoutI]; exact family_layoutI f x _

theorem fieldX_layoutR (f x y n : Nibble) : fieldX (f ++ x ++ y ++ n) = x := by
  rw [layoutR_eq_layoutI]; exact fieldX_layoutI f x _

theorem fieldY_layoutR (f x y n : Nibble) : fieldY (f ++ x ++ y ++ n) = y := by
  apply BitVec.eq_of_getLsbD_eq
  intro i hi
  show (BitVec.extractLsb' 4 4 (f ++ x ++ y ++ n : BitVec (4 + 4 + 4 + 4))).getLsbD i = _
  simp only [BitVec.getLsbD_extractLsb', BitVec.getLsbD_append]
  have h : ¬ 4 + i < 4 := by omega
  have e : 4 + i - 4 = i := by omega
  simp [hi, h, e]

theorem fieldN_layoutR (f x y n : Nibble) : fieldN (f ++ x ++ y ++ n) = n := by
  show BitVec.extractLsb' 0 4 (f ++ x ++ y ++ n : BitVec (4 + 4 + 4 + 4)) = n
  exact BitVec.extractLsb'_append_eq_right

/-! ## What the masks of R66 leave -/

theorem mask_F000 (f : Nibble) (nnn : Addr12) : (f ++ nnn : Word) &&& 0xF000 = f ++ (0x000 : Addr12) := by
  show (f ++ nnn : BitVec (4 + 12)) &&& (0xF#4 ++ 0x000#12) = _
  rw [BitVec.and_append, show f &&& 0xF#4 = f from BitVec.and_allOnes, BitVec.and_zero]
  rfl

theorem mask_F000_layoutI (f x : Nibble) (kk : Byte) : (f ++ x ++ kk : Word) &&& 0xF000 = f ++ (0x000 : Addr12) := by
  show (f ++ x ++ kk : BitVec (4 + 4 + 8)) &&& (0xF#4 ++ 0x0#4 ++ 0x00#8) = _
  rw [BitVec.and_append, BitVec.and_append, show f &&& 0xF#4 = f from BitVec.and_allOnes, BitVec.and_zero,
    BitVec.and_zero]
  revert f; decide

theorem mask_F0FF (f x : Nibble) (kk : Byte) : (f ++ x ++ kk : Word) &&& 0xF0FF = f ++ (0x0 : Nibble) ++ kk := by
  show (f ++ x ++ kk : BitVec (4 + 4 + 8)) &&& (0xF#4 ++ 0x0#4 ++ 0xFF#8) = _
  rw [BitVec.and_append, BitVec.and_append, show f &&& 0xF#4 = f from BitVec.and_allOnes, BitVec.and_zero,
    show kk &&& 0xFF#8 = kk from BitVec.and_allOnes]
  rfl

theorem mask_F00F (f x y n : Nibble) :
    (f ++ x ++ y ++ n : Word) &&& 0xF00F = f ++ (0x0 : Nibble) ++ (0x0 : Nibble) ++ n := by
  show (f ++ x ++ y ++ n : BitVec (4 + 4 + 4 + 4)) &&& (0xF#4 ++ 0x0#4 ++ 0x0#4 ++ 0xF#4) = _
  rw [BitVec.and_append, BitVec.and_append, BitVec.and_append, show f &&& 0xF#4 = f from BitVec.and_allOnes,
    show n &&& 0xF#4 = n from BitVec.and_allOnes, BitVec.and_zero, BitVec.and_zero]
  rfl

theorem mask_F000_layoutD (f x y n : Nibble) : (f ++ x ++ y ++ n : Word) &&& 0xF000 = f ++ (0x000 : Addr12) := by
  rw [layoutR_eq_layoutI]; exact mask_F000_layoutI f x _

/-! ## Bytes of a word -/

/-- The two bytes a table word is laid out as make the word again (R41). -/
theorem wordOfBytes_split (w : Word) : wordOfBytes (w.extractLsb' 8 8) (w.extractLsb' 0 8) = w := by
  apply BitVec.eq_of_getLsbD_eq
  intro i hi
  show (BitVec.extractLsb' 8 8 w ++ BitVec.extractLsb' 0 8 w : BitVec (8 + 8)).getLsbD i = _
  simp only [BitVec.getLsbD_append, BitVec.getLsbD_extractLsb']
  by_cases h : i < 8
  · simp [h]
  · have h' : i - 8 < 8 := by omega
    have e : 8 + (i - 8) = i := by omega
    simp [h, h', e]

theorem tableWordBytes_toNat (w : Word) : tableWordBytes 16 w.toNat = [w.extractLsb' 8 8, w.extractLsb' 0 8] := by
  have : w.toNat % 2 ^ 16 = w.toNat := Nat.mod_eq_of_lt w.isLt
  simp only [tableWordBytes, this, BitVec.ofNat_toNat, BitVec.setWidth_eq]

/-! ## The unrecognized variant -/

/-- An `if` answers with the word's own unrecognized variant where both branches do. -/
theorem ite_unrecognized {p : Prop} [Decidable p] {a b : Decoded} {w u : Word} (ha : a = .unrecognized u → u = w)
    (hb : b = .unrecognized u → u = w) : (if p then a else b) = .unrecognized u → u = w := by
  split
  · exact ha
  · exact hb

theorem instr_unrecognized {i : Instr} {w u : Word} : Decoded.instr i = .unrecognized u → u = w := nofun

theorem unrecognized_self {w u : Word} : Decoded.unrecognized w = .unrecognized u → u = w := fun h => by cases h; rfl

/-- The unrecognized variant carries the word itself (R71). -/
theorem decode_unrecognized {w u : Word} : decode w = .unrecognized u → u = w := by
  unfold decode decodeFamily0 decodeFamily8 decodeFamilyE decodeFamilyF
  repeat first
    | exact instr_unrecognized
    | exact unrecognized_self
    | apply ite_unrecognized

end Sys2Proof
end

