-- ==== Sys2Proof/Laws/State.lean ====
section
/-! SUPPORT. One lemma per field of State per update, true by definition, for simp: no later proof unfolds a record update. -/

namespace Sys2Proof.Machine

section
variable (s : State)

@[simp] theorem State.setReg_V (x : Nibble) (v : Byte) : (s.setReg x v).V = s.V.set x.toNat v x.isLt := rfl
@[simp] theorem State.setReg_I (x : Nibble) (v : Byte) : (s.setReg x v).I = s.I := rfl
@[simp] theorem State.setReg_pc (x : Nibble) (v : Byte) : (s.setReg x v).pc = s.pc := rfl
@[simp] theorem State.setReg_stack (x : Nibble) (v : Byte) : (s.setReg x v).stack = s.stack := rfl
@[simp] theorem State.setReg_depth (x : Nibble) (v : Byte) : (s.setReg x v).depth = s.depth := rfl
@[simp] theorem State.setReg_DT (x : Nibble) (v : Byte) : (s.setReg x v).DT = s.DT := rfl
@[simp] theorem State.setReg_ST (x : Nibble) (v : Byte) : (s.setReg x v).ST = s.ST := rfl
@[simp] theorem State.setReg_status (x : Nibble) (v : Byte) : (s.setReg x v).status = s.status := rfl
@[simp] theorem State.setReg_mem (x : Nibble) (v : Byte) : (s.setReg x v).mem = s.mem := rfl
@[simp] theorem State.setReg_result (x : Nibble) (v : Byte) : (s.setReg x v).result = s.result := rfl
@[simp] theorem State.setReg_inputs (x : Nibble) (v : Byte) : (s.setReg x v).inputs = s.inputs := rfl
@[simp] theorem State.setReg_draws (x : Nibble) (v : Byte) : (s.setReg x v).draws = s.draws := rfl

@[simp] theorem State.setRegs_V (vs : List Byte) : (s.setRegs vs).V = setRegsFrom vs 0 s.V := rfl
@[simp] theorem State.setRegs_I (vs : List Byte) : (s.setRegs vs).I = s.I := rfl
@[simp] theorem State.setRegs_pc (vs : List Byte) : (s.setRegs vs).pc = s.pc := rfl
@[simp] theorem State.setRegs_stack (vs : List Byte) : (s.setRegs vs).stack = s.stack := rfl
@[simp] theorem State.setRegs_depth (vs : List Byte) : (s.setRegs vs).depth = s.depth := rfl
@[simp] theorem State.setRegs_DT (vs : List Byte) : (s.setRegs vs).DT = s.DT := rfl
@[simp] theorem State.setRegs_ST (vs : List Byte) : (s.setRegs vs).ST = s.ST := rfl
@[simp] theorem State.setRegs_status (vs : List Byte) : (s.setRegs vs).status = s.status := rfl
@[simp] theorem State.setRegs_mem (vs : List Byte) : (s.setRegs vs).mem = s.mem := rfl
@[simp] theorem State.setRegs_result (vs : List Byte) : (s.setRegs vs).result = s.result := rfl
@[simp] theorem State.setRegs_inputs (vs : List Byte) : (s.setRegs vs).inputs = s.inputs := rfl
@[simp] theorem State.setRegs_draws (vs : List Byte) : (s.setRegs vs).draws = s.draws := rfl

@[simp] theorem State.setI_V (v : Word) : (s.setI v).V = s.V := rfl
@[simp] theorem State.setI_I (v : Word) : (s.setI v).I = v := rfl
@[simp] theorem State.setI_pc (v : Word) : (s.setI v).pc = s.pc := rfl
@[simp] theorem State.setI_stack (v : Word) : (s.setI v).stack = s.stack := rfl
@[simp] theorem State.setI_depth (v : Word) : (s.setI v).depth = s.depth := rfl
@[simp] theorem State.setI_DT (v : Word) : (s.setI v).DT = s.DT := rfl
@[simp] theorem State.setI_ST (v : Word) : (s.setI v).ST = s.ST := rfl
@[simp] theorem State.setI_status (v : Word) : (s.setI v).status = s.status := rfl
@[simp] theorem State.setI_mem (v : Word) : (s.setI v).mem = s.mem := rfl
@[simp] theorem State.setI_result (v : Word) : (s.setI v).result = s.result := rfl
@[simp] theorem State.setI_inputs (v : Word) : (s.setI v).inputs = s.inputs := rfl
@[simp] theorem State.setI_draws (v : Word) : (s.setI v).draws = s.draws := rfl
@[simp] theorem State.setI_reg (v : Word) (r : Nibble) : (s.setI v).reg r = s.reg r := rfl

@[simp] theorem State.setPc_V (v : Word) : (s.setPc v).V = s.V := rfl
@[simp] theorem State.setPc_I (v : Word) : (s.setPc v).I = s.I := rfl
@[simp] theorem State.setPc_pc (v : Word) : (s.setPc v).pc = v := rfl
@[simp] theorem State.setPc_stack (v : Word) : (s.setPc v).stack = s.stack := rfl
@[simp] theorem State.setPc_depth (v : Word) : (s.setPc v).depth = s.depth := rfl
@[simp] theorem State.setPc_DT (v : Word) : (s.setPc v).DT = s.DT := rfl
@[simp] theorem State.setPc_ST (v : Word) : (s.setPc v).ST = s.ST := rfl
@[simp] theorem State.setPc_status (v : Word) : (s.setPc v).status = s.status := rfl
@[simp] theorem State.setPc_mem (v : Word) : (s.setPc v).mem = s.mem := rfl
@[simp] theorem State.setPc_result (v : Word) : (s.setPc v).result = s.result := rfl
@[simp] theorem State.setPc_inputs (v : Word) : (s.setPc v).inputs = s.inputs := rfl
@[simp] theorem State.setPc_draws (v : Word) : (s.setPc v).draws = s.draws := rfl
@[simp] theorem State.setPc_reg (v : Word) (r : Nibble) : (s.setPc v).reg r = s.reg r := rfl

@[simp] theorem State.setDT_V (v : Byte) : (s.setDT v).V = s.V := rfl
@[simp] theorem State.setDT_I (v : Byte) : (s.setDT v).I = s.I := rfl
@[simp] theorem State.setDT_pc (v : Byte) : (s.setDT v).pc = s.pc := rfl
@[simp] theorem State.setDT_stack (v : Byte) : (s.setDT v).stack = s.stack := rfl
@[simp] theorem State.setDT_depth (v : Byte) : (s.setDT v).depth = s.depth := rfl
@[simp] theorem State.setDT_DT (v : Byte) : (s.setDT v).DT = v := rfl
@[simp] theorem State.setDT_ST (v : Byte) : (s.setDT v).ST = s.ST := rfl
@[simp] theorem State.setDT_status (v : Byte) : (s.setDT v).status = s.status := rfl
@[simp] theorem State.setDT_mem (v : Byte) : (s.setDT v).mem = s.mem := rfl
@[simp] theorem State.setDT_result (v : Byte) : (s.setDT v).result = s.result := rfl
@[simp] theorem State.setDT_inputs (v : Byte) : (s.setDT v).inputs = s.inputs := rfl
@[simp] theorem State.setDT_draws (v : Byte) : (s.setDT v).draws = s.draws := rfl
@[simp] theorem State.setDT_reg (v : Byte) (r : Nibble) : (s.setDT v).reg r = s.reg r := rfl

@[simp] theorem State.setST_V (v : Byte) : (s.setST v).V = s.V := rfl
@[simp] theorem State.setST_I (v : Byte) : (s.setST v).I = s.I := rfl
@[simp] theorem State.setST_pc (v : Byte) : (s.setST v).pc = s.pc := rfl
@[simp] theorem State.setST_stack (v : Byte) : (s.setST v).stack = s.stack := rfl
@[simp] theorem State.setST_depth (v : Byte) : (s.setST v).depth = s.depth := rfl
@[simp] theorem State.setST_DT (v : Byte) : (s.setST v).DT = s.DT := rfl
@[simp] theorem State.setST_ST (v : Byte) : (s.setST v).ST = v := rfl
@[simp] theorem State.setST_status (v : Byte) : (s.setST v).status = s.status := rfl
@[simp] theorem State.setST_mem (v : Byte) : (s.setST v).mem = s.mem := rfl
@[simp] theorem State.setST_result (v : Byte) : (s.setST v).result = s.result := rfl
@[simp] theorem State.setST_inputs (v : Byte) : (s.setST v).inputs = s.inputs := rfl
@[simp] theorem State.setST_draws (v : Byte) : (s.setST v).draws = s.draws := rfl
@[simp] theorem State.setST_reg (v : Byte) (r : Nibble) : (s.setST v).reg r = s.reg r := rfl

@[simp] theorem State.setStatus_V (v : Status) : (s.setStatus v).V = s.V := rfl
@[simp] theorem State.setStatus_I (v : Status) : (s.setStatus v).I = s.I := rfl
@[simp] theorem State.setStatus_pc (v : Status) : (s.setStatus v).pc = s.pc := rfl
@[simp] theorem State.setStatus_stack (v : Status) : (s.setStatus v).stack = s.stack := rfl
@[simp] theorem State.setStatus_depth (v : Status) : (s.setStatus v).depth = s.depth := rfl
@[simp] theorem State.setStatus_DT (v : Status) : (s.setStatus v).DT = s.DT := rfl
@[simp] theorem State.setStatus_ST (v : Status) : (s.setStatus v).ST = s.ST := rfl
@[simp] theorem State.setStatus_status (v : Status) : (s.setStatus v).status = v := rfl
@[simp] theorem State.setStatus_mem (v : Status) : (s.setStatus v).mem = s.mem := rfl
@[simp] theorem State.setStatus_result (v : Status) : (s.setStatus v).result = s.result := rfl
@[simp] theorem State.setStatus_inputs (v : Status) : (s.setStatus v).inputs = s.inputs := rfl
@[simp] theorem State.setStatus_draws (v : Status) : (s.setStatus v).draws = s.draws := rfl
@[simp] theorem State.setStatus_reg (v : Status) (r : Nibble) : (s.setStatus v).reg r = s.reg r := rfl

@[simp] theorem State.setMem_V (m : Memory) : (s.setMem m).V = s.V := rfl
@[simp] theorem State.setMem_I (m : Memory) : (s.setMem m).I = s.I := rfl
@[simp] theorem State.setMem_pc (m : Memory) : (s.setMem m).pc = s.pc := rfl
@[simp] theorem State.setMem_stack (m : Memory) : (s.setMem m).stack = s.stack := rfl
@[simp] theorem State.setMem_depth (m : Memory) : (s.setMem m).depth = s.depth := rfl
@[simp] theorem State.setMem_DT (m : Memory) : (s.setMem m).DT = s.DT := rfl
@[simp] theorem State.setMem_ST (m : Memory) : (s.setMem m).ST = s.ST := rfl
@[simp] theorem State.setMem_status (m : Memory) : (s.setMem m).status = s.status := rfl
@[simp] theorem State.setMem_mem (m : Memory) : (s.setMem m).mem = m := rfl
@[simp] theorem State.setMem_result (m : Memory) : (s.setMem m).result = s.result := rfl
@[simp] theorem State.setMem_inputs (m : Memory) : (s.setMem m).inputs = s.inputs := rfl
@[simp] theorem State.setMem_draws (m : Memory) : (s.setMem m).draws = s.draws := rfl
@[simp] theorem State.setMem_reg (m : Memory) (r : Nibble) : (s.setMem m).reg r = s.reg r := rfl

@[simp] theorem State.raise_V (c : Cause) : (s.raise c).V = s.V := rfl
@[simp] theorem State.raise_I (c : Cause) : (s.raise c).I = s.I := rfl
@[simp] theorem State.raise_pc (c : Cause) : (s.raise c).pc = s.pc := rfl
@[simp] theorem State.raise_stack (c : Cause) : (s.raise c).stack = s.stack := rfl
@[simp] theorem State.raise_depth (c : Cause) : (s.raise c).depth = s.depth := rfl
@[simp] theorem State.raise_DT (c : Cause) : (s.raise c).DT = s.DT := rfl
@[simp] theorem State.raise_ST (c : Cause) : (s.raise c).ST = s.ST := rfl
@[simp] theorem State.raise_status (c : Cause) : (s.raise c).status = .fatal c := rfl
@[simp] theorem State.raise_mem (c : Cause) : (s.raise c).mem = s.mem := rfl
@[simp] theorem State.raise_result (c : Cause) : (s.raise c).result = some (.error c) := rfl
@[simp] theorem State.raise_inputs (c : Cause) : (s.raise c).inputs = s.inputs := rfl
@[simp] theorem State.raise_draws (c : Cause) : (s.raise c).draws = s.draws := rfl
@[simp] theorem State.raise_reg (c : Cause) (r : Nibble) : (s.raise c).reg r = s.reg r := rfl

@[simp] theorem State.repeatError_V (c : Cause) : (s.repeatError c).V = s.V := rfl
@[simp] theorem State.repeatError_I (c : Cause) : (s.repeatError c).I = s.I := rfl
@[simp] theorem State.repeatError_pc (c : Cause) : (s.repeatError c).pc = s.pc := rfl
@[simp] theorem State.repeatError_stack (c : Cause) : (s.repeatError c).stack = s.stack := rfl
@[simp] theorem State.repeatError_depth (c : Cause) : (s.repeatError c).depth = s.depth := rfl
@[simp] theorem State.repeatError_DT (c : Cause) : (s.repeatError c).DT = s.DT := rfl
@[simp] theorem State.repeatError_ST (c : Cause) : (s.repeatError c).ST = s.ST := rfl
@[simp] theorem State.repeatError_status (c : Cause) : (s.repeatError c).status = s.status := rfl
@[simp] theorem State.repeatError_mem (c : Cause) : (s.repeatError c).mem = s.mem := rfl
@[simp] theorem State.repeatError_result (c : Cause) : (s.repeatError c).result = some (.error c) := rfl
@[simp] theorem State.repeatError_inputs (c : Cause) : (s.repeatError c).inputs = s.inputs := rfl
@[simp] theorem State.repeatError_draws (c : Cause) : (s.repeatError c).draws = s.draws := rfl
@[simp] theorem State.repeatError_reg (c : Cause) (r : Nibble) : (s.repeatError c).reg r = s.reg r := rfl

@[simp] theorem State.advance_V : s.advance.V = s.V := rfl
@[simp] theorem State.advance_I : s.advance.I = s.I := rfl
@[simp] theorem State.advance_pc : s.advance.pc = s.pc + 2 := rfl
@[simp] theorem State.advance_stack : s.advance.stack = s.stack := rfl
@[simp] theorem State.advance_depth : s.advance.depth = s.depth := rfl
@[simp] theorem State.advance_DT : s.advance.DT = decay s.DT := rfl
@[simp] theorem State.advance_ST : s.advance.ST = decay s.ST := rfl
@[simp] theorem State.advance_status : s.advance.status = s.status := rfl
@[simp] theorem State.advance_mem : s.advance.mem = s.mem := rfl
@[simp] theorem State.advance_result : s.advance.result = s.result := rfl
@[simp] theorem State.advance_inputs : s.advance.inputs = s.inputs := rfl
@[simp] theorem State.advance_draws : s.advance.draws = s.draws := rfl
@[simp] theorem State.advance_reg (r : Nibble) : s.advance.reg r = s.reg r := rfl

@[simp] theorem State.finish_V (es : List Event) : (s.finish es).V = s.V := rfl
@[simp] theorem State.finish_I (es : List Event) : (s.finish es).I = s.I := rfl
@[simp] theorem State.finish_pc (es : List Event) : (s.finish es).pc = s.pc := rfl
@[simp] theorem State.finish_stack (es : List Event) : (s.finish es).stack = s.stack := rfl
@[simp] theorem State.finish_depth (es : List Event) : (s.finish es).depth = s.depth := rfl
@[simp] theorem State.finish_DT (es : List Event) : (s.finish es).DT = s.DT := rfl
@[simp] theorem State.finish_ST (es : List Event) : (s.finish es).ST = s.ST := rfl
@[simp] theorem State.finish_status (es : List Event) : (s.finish es).status = s.status := rfl
@[simp] theorem State.finish_mem (es : List Event) : (s.finish es).mem = s.mem := rfl
@[simp] theorem State.finish_result (es : List Event) : (s.finish es).result = some (.ok es) := rfl
@[simp] theorem State.finish_inputs (es : List Event) : (s.finish es).inputs = s.inputs.tail := rfl
@[simp] theorem State.finish_draws (es : List Event) : (s.finish es).draws = s.draws + 1 := rfl
@[simp] theorem State.finish_reg (es : List Event) (r : Nibble) : (s.finish es).reg r = s.reg r := rfl

end

@[simp] theorem State.resetWith_V (m : Nat → Byte) : (State.resetWith m).V = State.reset.V := rfl
@[simp] theorem State.resetWith_I (m : Nat → Byte) : (State.resetWith m).I = 0x0000 := rfl
@[simp] theorem State.resetWith_pc (m : Nat → Byte) : (State.resetWith m).pc = 0x0200 := rfl
@[simp] theorem State.resetWith_stack (m : Nat → Byte) : (State.resetWith m).stack = State.reset.stack := rfl
@[simp] theorem State.resetWith_depth (m : Nat → Byte) : (State.resetWith m).depth = 0 := rfl
@[simp] theorem State.resetWith_DT (m : Nat → Byte) : (State.resetWith m).DT = 0x00 := rfl
@[simp] theorem State.resetWith_ST (m : Nat → Byte) : (State.resetWith m).ST = 0x00 := rfl
@[simp] theorem State.resetWith_status (m : Nat → Byte) : (State.resetWith m).status = .running := rfl
@[simp] theorem State.resetWith_mem (m : Nat → Byte) : (State.resetWith m).mem = Memory.initial m := rfl
@[simp] theorem State.resetWith_result (m : Nat → Byte) : (State.resetWith m).result = none := rfl
@[simp] theorem State.resetWith_inputs (m : Nat → Byte) : (State.resetWith m).inputs = [] := rfl
@[simp] theorem State.resetWith_draws (m : Nat → Byte) : (State.resetWith m).draws = 0 := rfl
@[simp] theorem State.resetWith_reg (m : Nat → Byte) (r : Nibble) : (State.resetWith m).reg r = State.reset.reg r := rfl

end Sys2Proof.Machine
end

