-- ==== Sys2Proof/Laws/Ops.lean ====
section
/-! SUPPORT. One spec lemma per shared operation: memory laws and the canonical form, block accesses, registers, the call
stack, transfers, and what `State.execute` can answer. Later proofs cite these and do not unfold the operations. -/

namespace Sys2Proof.Machine

/-! ## Memory: reading after a change -/

@[simp] theorem Memory.read_nil (a : Nat) : Memory.read [] a = unlistedByte a := rfl

theorem Memory.read_cons (b : Nat) (u : Byte) (m : Memory) (a : Nat) :
    Memory.read ((b, u) :: m) a = if a = b then u else Memory.read m a := rfl

theorem Memory.read_erase (m : Memory) (a b : Nat) :
    (m.erase a).read b = if b = a then unlistedByte b else m.read b := by
  induction m with
  | nil => simp [Memory.erase]
  | cons c m ih =>
    obtain ⟨d, u⟩ := c
    simp only [Memory.erase] at ih
    by_cases hd : d = a
    · subst hd
      simp only [Memory.erase, List.filter_cons, bne_self_eq_false, Bool.false_eq_true, if_false, ih, Memory.read_cons]
      split <;> simp_all
    · simp only [Memory.erase, List.filter_cons, bne_iff_ne, ne_eq, hd, not_false_eq_true, if_true, Memory.read_cons, ih]
      split
      · simp_all
      · rfl

theorem Memory.read_insert (m : Memory) (a b : Nat) (v : Byte) (hm : ∀ c ∈ m, c.1 ≠ a) :
    (m.insert a v).read b = if b = a then v else m.read b := by
  induction m with
  | nil => rfl
  | cons c m ih =>
    obtain ⟨d, u⟩ := c
    have hd : d ≠ a := hm (d, u) (by simp)
    have ih := ih fun c hc => hm c (by simp [hc])
    by_cases hlt : a < d
    · simp [Memory.insert, hlt, Memory.read_cons]
    · simp only [Memory.insert, hlt, if_false, Memory.read_cons, ih]
      split <;> simp_all

theorem Memory.erase_no_entry (m : Memory) (a : Nat) : ∀ c ∈ m.erase a, c.1 ≠ a := by
  intro c hc
  simpa [Memory.erase] using (List.mem_filter.mp hc).2

/-- A write is read back at its address and leaves every other address alone. -/
theorem Memory.read_write (m : Memory) (a b : Nat) (v : Byte) :
    (m.write a v).read b = if b = a then v else m.read b := by
  unfold Memory.write
  split
  · next h => subst h; rw [Memory.read_erase]; split <;> simp_all
  · rw [Memory.read_insert _ _ _ _ (m.erase_no_entry a), Memory.read_erase]
    split <;> rfl

@[simp] theorem Memory.read_write_same (m : Memory) (a : Nat) (v : Byte) : (m.write a v).read a = v := by
  simp [Memory.read_write]

theorem Memory.read_write_other (m : Memory) {a b : Nat} (v : Byte) (h : b ≠ a) : (m.write a v).read b = m.read b := by
  simp [Memory.read_write, h]

/-- A block write leaves every address outside the block alone. -/
theorem Memory.read_writeBlock_outside (vs : List Byte) :
    ∀ (m : Memory) (a b : Nat), b < a ∨ a + vs.length ≤ b → (m.writeBlock a vs).read b = m.read b := by
  induction vs with
  | nil => intro m a b _; rfl
  | cons v vs ih =>
    intro m a b h
    simp only [List.length_cons] at h
    rw [Memory.writeBlock, ih _ _ _ (by omega), Memory.read_write_other _ _ (by omega)]

/-- Byte `k` of a block write is read back at `a + k`. -/
theorem Memory.read_writeBlock_inside (vs : List Byte) :
    ∀ (m : Memory) (a k : Nat) (h : k < vs.length), (m.writeBlock a vs).read (a + k) = vs[k] := by
  induction vs with
  | nil => intro m a k h; simp at h
  | cons v vs ih =>
    intro m a k h
    rw [Memory.writeBlock]
    cases k with
    | zero => rw [Memory.read_writeBlock_outside _ _ _ _ (by omega)]; simp
    | succ k =>
      have hk : k < vs.length := by simpa using h
      have := ih (m.write a v) (a + 1) k hk
      rw [show a + (k + 1) = a + 1 + k by omega, this]; rfl

/-! ## Memory: the canonical form -/

theorem Memory.wfFrom_cons (lo a : Nat) (v : Byte) (m : Memory) :
    Memory.wfFrom lo ((a, v) :: m) = true ↔
      lo ≤ a ∧ a < 0x1000 ∧ v ≠ unlistedByte a ∧ Memory.wfFrom (a + 1) m = true := by
  simp only [Memory.wfFrom, Bool.and_eq_true, decide_eq_true_eq, bne_iff_ne, and_assoc]
  rfl

theorem Memory.wfFrom_mono {lo lo' : Nat} {m : Memory} (h : Memory.wfFrom lo' m = true) (hl : lo ≤ lo') :
    Memory.wfFrom lo m = true := by
  cases m with
  | nil => rfl
  | cons c m =>
    obtain ⟨a, v⟩ := c
    rw [Memory.wfFrom_cons] at h ⊢
    exact ⟨by omega, h.2⟩

theorem Memory.wfFrom_erase (a : Nat) : ∀ (m : Memory) (lo : Nat), Memory.wfFrom lo m = true →
    Memory.wfFrom lo (m.erase a) = true := by
  intro m
  induction m with
  | nil => intro lo h; exact h
  | cons c m ih =>
    obtain ⟨d, u⟩ := c
    intro lo h
    rw [Memory.wfFrom_cons] at h
    have hm := ih _ h.2.2.2
    simp only [Memory.erase] at hm ⊢
    rw [List.filter_cons]
    split
    · rw [Memory.wfFrom_cons]; exact ⟨h.1, h.2.1, h.2.2.1, hm⟩
    · exact Memory.wfFrom_mono hm (by omega)

theorem Memory.wfFrom_insert (a : Nat) (v : Byte) (ha : a < 0x1000) (hv : v ≠ unlistedByte a) :
    ∀ (m : Memory) (lo : Nat), lo ≤ a → (∀ c ∈ m, c.1 ≠ a) → Memory.wfFrom lo m = true →
      Memory.wfFrom lo (m.insert a v) = true := by
  intro m
  induction m with
  | nil => intro lo hl _ _; rw [Memory.insert, Memory.wfFrom_cons]; exact ⟨hl, ha, hv, rfl⟩
  | cons c m ih =>
    obtain ⟨d, u⟩ := c
    intro lo hl hne h
    have hd : d ≠ a := hne (d, u) (by simp)
    rw [Memory.wfFrom_cons] at h
    rw [Memory.insert]
    split
    · rw [Memory.wfFrom_cons, Memory.wfFrom_cons]; exact ⟨hl, ha, hv, by omega, h.2⟩
    · rw [Memory.wfFrom_cons]
      exact ⟨h.1, h.2.1, h.2.2.1, ih _ (by omega) (fun c hc => hne c (by simp [hc])) h.2.2.2⟩

/-- A write inside the address space keeps the canonical form. -/
theorem Memory.write_wf {m : Memory} (h : m.wf = true) {a : Nat} (ha : a < 0x1000) (v : Byte) : (m.write a v).wf = true := by
  unfold Memory.write
  split
  · exact Memory.wfFrom_erase a m 0 h
  · next hv => exact Memory.wfFrom_insert a v ha hv _ 0 (by omega) (m.erase_no_entry a) (Memory.wfFrom_erase a m 0 h)

/-- A block write inside the address space keeps the canonical form. -/
theorem Memory.writeBlock_wf (vs : List Byte) : ∀ {m : Memory} {a : Nat}, m.wf = true → a + vs.length ≤ 0x1000 →
    (m.writeBlock a vs).wf = true := by
  induction vs with
  | nil => intro m a h _; exact h
  | cons v vs ih =>
    intro m a h ha
    simp only [List.length_cons] at ha
    exact ih (Memory.write_wf h (by omega) v) (by omega)

/-! ## Memory: what a MEM_INIT gives -/

theorem Memory.read_initialFrom (memInit : Nat → Byte) (b : Nat) : ∀ n a : Nat,
    (Memory.initialFrom memInit n a).read b = if a ≤ b ∧ b < a + n then memInit b else unlistedByte b := by
  intro n
  induction n with
  | zero => intro a; rw [if_neg (by omega)]; rfl
  | succ n ih =>
    intro a
    rw [Memory.initialFrom]
    by_cases hb : b = a
    · subst hb
      have hin : b ≤ b ∧ b < b + (n + 1) := by omega
      have hout : ¬ (b + 1 ≤ b ∧ b < b + 1 + n) := by omega
      rw [if_pos hin]
      split
      · next h => rw [ih, if_neg hout, h]
      · rw [Memory.read_cons, if_pos rfl]
    · have hr : (a + 1 ≤ b ∧ b < a + 1 + n) ↔ (a ≤ b ∧ b < a + (n + 1)) := by omega
      split
      · simp only [ih, hr]
      · simp only [Memory.read_cons, if_neg hb, ih, hr]

/-- After reset every address reads its MEM_INIT (R26). -/
theorem Memory.read_initial (memInit : Nat → Byte) {a : Nat} (h : a < 0x1000) :
    (Memory.initial memInit).read a = memInit a := by
  rw [Memory.initial, Memory.read_initialFrom]
  exact if_pos ⟨Nat.zero_le a, by simpa [Config.memSize] using h⟩

theorem Memory.initialFrom_wf (memInit : Nat → Byte) : ∀ n a : Nat, a + n ≤ 0x1000 →
    Memory.wfFrom a (Memory.initialFrom memInit n a) = true := by
  intro n
  induction n with
  | zero => intro a _; rfl
  | succ n ih =>
    intro a h
    rw [Memory.initialFrom]
    split
    · exact Memory.wfFrom_mono (ih (a + 1) (by omega)) (by omega)
    · next hv => exact (Memory.wfFrom_cons _ _ _ _).mpr ⟨Nat.le_refl a, by omega, hv, ih (a + 1) (by omega)⟩

/-- Every MEM_INIT gives a memory in canonical form. -/
theorem Memory.initial_wf (memInit : Nat → Byte) : (Memory.initial memInit).wf = true :=
  Memory.initialFrom_wf memInit Config.memSize 0 (Nat.le_refl _)

theorem Memory.initialFrom_default : ∀ n a : Nat, Memory.initialFrom Config.memInitDefault n a = [] := by
  intro n
  induction n with
  | zero => intro a; rfl
  | succ n ih =>
    intro a
    rw [Memory.initialFrom, if_pos (show Config.memInitDefault a = unlistedByte a from rfl), ih]

/-- The default MEM_INIT gives the reset state of the host interface. -/
theorem State.resetWith_default : State.resetWith Config.memInitDefault = State.reset := by
  rw [State.resetWith, Memory.initial, Memory.initialFrom_default]
  rfl

theorem State.reset_mem_wf : State.reset.mem.wf = true := rfl

/-! ## Bounded accesses -/

theorem accessOutOfBounds_iff (a n : Nat) : accessOutOfBounds a n = true ↔ 0 < n ∧ 0xFFF < a + n - 1 := by
  simp [accessOutOfBounds]

theorem accessInBounds_iff (a n : Nat) : accessOutOfBounds a n = false ↔ n = 0 ∨ a + n ≤ 0x1000 := by
  rw [← Bool.not_eq_true, accessOutOfBounds_iff]; omega

theorem Memory.load_ok (m : Memory) {a n : Nat} (h : n = 0 ∨ a + n ≤ 0x1000) : m.load a n = .ok (m.readBlock a n) := by
  simp [Memory.load, (accessInBounds_iff a n).mpr h]

theorem Memory.load_error (m : Memory) {a n : Nat} (h : 0 < n ∧ 0x1000 < a + n) : m.load a n = .error .outOfBounds := by
  simp [Memory.load, (accessOutOfBounds_iff a n).mpr (by omega)]

theorem Memory.store_ok (m : Memory) {a : Nat} {vs : List Byte} (h : vs.length = 0 ∨ a + vs.length ≤ 0x1000) :
    m.store a vs = .ok (m.writeBlock a vs) := by
  simp [Memory.store, (accessInBounds_iff a vs.length).mpr h]

theorem Memory.store_error (m : Memory) {a : Nat} {vs : List Byte} (h : 0 < vs.length ∧ 0x1000 < a + vs.length) :
    m.store a vs = .error .outOfBounds := by
  simp [Memory.store, (accessOutOfBounds_iff a vs.length).mpr (by omega)]

/-- A store that succeeds keeps the canonical form. -/
theorem Memory.store_wf {m m' : Memory} {a : Nat} {vs : List Byte} (h : m.wf = true) (hs : m.store a vs = .ok m') :
    m'.wf = true := by
  unfold Memory.store at hs
  split at hs
  · cases hs
  · next hb =>
    cases hs
    cases vs with
    | nil => exact h
    | cons v vs =>
      have := (accessInBounds_iff a (v :: vs).length).mp (by simpa using hb)
      exact Memory.writeBlock_wf _ h (by simpa using this)

@[simp] theorem Memory.readBlock_length (m : Memory) (a n : Nat) : (m.readBlock a n).length = n := by
  simp [Memory.readBlock]

theorem Memory.readBlock_getElem (m : Memory) (a n k : Nat) (h : k < n) :
    (m.readBlock a n)[k]'(by simpa using h) = m.read (a + k) := by
  simp [Memory.readBlock]

/-! ## Registers -/

theorem State.reg_setReg (s : State) (x y : Nibble) (v : Byte) :
    (s.setReg x v).reg y = if y = x then v else s.reg y := by
  have hx : (y = x) ↔ x.toNat = y.toNat := by rw [BitVec.toNat_eq]; omega
  simp only [State.reg, State.setReg_V, Vector.getElem_set, hx]

@[simp] theorem State.reg_setReg_same (s : State) (x : Nibble) (v : Byte) : (s.setReg x v).reg x = v := by
  simp [State.reg_setReg]

theorem State.reg_resultThenFlag (s : State) (x r : Nibble) (v f : Byte) :
    (s.resultThenFlag x v f).reg r = if r = 0xF then f else if r = x then v else s.reg r := by
  simp [State.resultThenFlag, State.reg_setReg, VF]

theorem State.reg_flagThenResult (s : State) (x r : Nibble) (f v : Byte) :
    (s.flagThenResult x f v).reg r = if r = x then v else if r = 0xF then f else s.reg r := by
  simp [State.flagThenResult, State.reg_setReg, VF]

/-- A block of register writes from index `k`: register `i` takes byte `i - k` where there is one. -/
theorem setRegsFrom_getElem (vs : List Byte) : ∀ (k : Nat) (V : Vector Byte 16) (i : Nat) (hi : i < 16),
    (setRegsFrom vs k V)[i] = if h : k ≤ i ∧ i - k < vs.length then vs[i - k]'h.2 else V[i] := by
  induction vs with
  | nil => intro k V i hi; simp [setRegsFrom]
  | cons v vs ih =>
    intro k V i hi
    rw [setRegsFrom, ih]
    by_cases h1 : k + 1 ≤ i ∧ i - (k + 1) < vs.length
    · have h2 : k ≤ i ∧ i - k < (v :: vs).length := by simp only [List.length_cons]; omega
      rw [dif_pos h1, dif_pos h2]
      have : i - k = (i - (k + 1)) + 1 := by omega
      simp only [this, List.getElem_cons_succ]
    · rw [dif_neg h1, Vector.getElem_setIfInBounds hi]
      by_cases hk : k = i
      · subst hk; simp
      · rw [if_neg hk, dif_neg]
        simp only [List.length_cons]; omega

theorem State.reg_setRegs (s : State) (vs : List Byte) (r : Nibble) :
    (s.setRegs vs).reg r = if h : r.toNat < vs.length then vs[r.toNat] else s.reg r := by
  have := setRegsFrom_getElem vs 0 s.V r.toNat r.isLt
  simpa [State.reg] using this

@[simp] theorem State.regsUpTo_length (s : State) (x : Nibble) : (s.regsUpTo x).length = x.toNat + 1 := by
  have := x.isLt
  simp [State.regsUpTo]; omega

theorem State.regsUpTo_getElem (s : State) (x r : Nibble) (h : r.toNat ≤ x.toNat) :
    (s.regsUpTo x)[r.toNat]'(by simp; omega) = s.reg r := by
  simp [State.regsUpTo, State.reg]

/-! ## Call stack -/

theorem State.push_full (s : State) (v : Word) (h : s.depth.val = 16) : s.push v = .error .stackOverflow := by
  simp [State.push, h]

theorem State.push_ok (s : State) (v : Word) (h : s.depth.val < 16) :
    s.push v = .ok { s with stack := s.stack.set s.depth.val v h, depth := ⟨s.depth.val + 1, by omega⟩ } := by
  have : s.depth.val ≠ 16 := by omega
  simp [State.push, this]

theorem State.pop_empty (s : State) (h : s.depth.val = 0) : s.pop = .error .stackUnderflow := by
  simp [State.pop, h]

theorem State.pop_ok (s : State) (h : s.depth.val ≠ 0) :
    s.pop = .ok (s.top, { s with depth := ⟨s.depth.val - 1, by omega⟩ }) := by
  simp [State.pop, h]

/-! ## Transfers, skips, and the step around an instruction -/

theorem State.transfer_ok (s : State) {a : Nat} (h : a ≤ 0xFFF) :
    s.transfer a = .ok (s.setPc (BitVec.ofNat 16 a), []) := by
  have : ¬ 0xFFF < a := by omega
  simp [State.transfer, State.done, this]

theorem State.transfer_error (s : State) {a : Nat} (h : 0xFFF < a) : s.transfer a = .error .outOfBounds := by
  simp [State.transfer, h]

theorem State.execute_ok {s t : State} {body : State → Phase5} {es : List Event} (h : body s.advance = .ok (t, es)) :
    s.execute body = .next (t.finish es) := by
  simp [State.execute, h]

theorem State.execute_error {s : State} {body : State → Phase5} {c : Cause} (h : body s.advance = .error c) :
    s.execute body = .next (s.raise c) := by
  simp [State.execute, h]

/-- Everything a step around an instruction can answer: the finished phase 5, or the raised cause over the state before. -/
theorem State.execute_cases (s : State) (body : State → Phase5) :
    (∃ t es, body s.advance = .ok (t, es) ∧ s.execute body = .next (t.finish es)) ∨
      ∃ c, body s.advance = .error c ∧ s.execute body = .next (s.raise c) := by
  cases h : body s.advance with
  | ok p => exact .inl ⟨p.1, p.2, rfl, State.execute_ok h⟩
  | error c => exact .inr ⟨c, rfl, State.execute_error h⟩

theorem decay_eq (v : Byte) : decay v = if v = 0 then 0 else v - 1 := rfl

/-! ## The font parameters -/

/-- The parameters in use satisfy R142's bound. -/
theorem Config_font_wf : Config.font.wf = true := by
  unfold Config.font
  split
  · assumption
  · rfl

end Sys2Proof.Machine
end

