-- ==== Sys2Proof/Laws/Exec.lean ====
section
/-! SUPPORT. What `exec`, the fetch and the cycle can do, said once: every instruction is a step around some phase 5, and the
cycle is one of five cases. -/

namespace Sys2Proof.Machine

/-- Every instruction is a step around a phase 5 (R86): it ends as `State.execute_cases` says. -/
theorem exec_isExecute (i : Instr) (s : State) : ∃ body, exec i s = s.execute body := by
  cases i <;> simp only [exec, execCls, execRet, execJp, execCall, execSeImm, execSneImm, execSeReg, execLdImm,
    execAddImm, execLdReg, execOr, execAnd, execXor, execAddReg, execSub, execShr, execSubn, execShl, execSneReg,
    execLdI, execJpV0, execRnd, execDrw, execSkp, execSknp, execLdVxDt, execLdVxK, execLdDtVx, execLdStVx, execAddI,
    execLdF, execLdB, execStRegs, execLdRegs] <;> exact ⟨_, rfl⟩

theorem State.fetch_ok (s : State) (h : s.pc.toNat + 1 ≤ 0xFFF) :
    s.fetch = .ok (s.mem.read s.pc.toNat ++ s.mem.read (s.pc.toNat + 1)) := by
  have : accessOutOfBounds s.pc.toNat 2 = false := (accessInBounds_iff _ _).mpr (by omega)
  simp [State.fetch, this, wordOfBytes]

theorem State.fetch_error (s : State) (h : 0xFFF < s.pc.toNat + 1) : s.fetch = .error .outOfBounds := by
  have : accessOutOfBounds s.pc.toNat 2 = true := (accessOutOfBounds_iff _ _).mpr (by omega)
  simp [State.fetch, this]

/-- The cycle, case by case in the order of R201. -/
theorem State.cycle_cases (s : State) :
    (∃ c, s.status = .fatal c ∧ s.cycle = .next (s.repeatError c)) ∨
    (∃ x, s.status = .awaitKey x ∧ s.cycle = .next (s.raise .unresolvedInput)) ∨
    (s.status = .running ∧ 0xFFF < s.pc.toNat + 1 ∧ s.cycle = .next (s.raise .outOfBounds)) ∨
    (s.status = .running ∧ s.pc.toNat + 1 ≤ 0xFFF ∧
      s.cycle = s.runWord (s.mem.read s.pc.toNat ++ s.mem.read (s.pc.toNat + 1))) := by
  cases h : s.status with
  | fatal c => exact .inl ⟨c, rfl, by simp [State.cycle, h]⟩
  | awaitKey x => exact .inr (.inl ⟨x, rfl, by simp [State.cycle, h]⟩)
  | running =>
    by_cases hp : s.pc.toNat + 1 ≤ 0xFFF
    · exact .inr (.inr (.inr ⟨rfl, hp, by simp [State.cycle, h, s.fetch_ok hp]⟩))
    · exact .inr (.inr (.inl ⟨rfl, by omega, by simp [State.cycle, h, s.fetch_error (by omega)]⟩))

/-- A word that is run is a step around a phase 5, decoded or not. -/
theorem State.runWord_isExecute (s : State) (w : Word) : ∃ body, s.runWord w = s.execute body := by
  unfold State.runWord
  split
  · exact exec_isExecute _ s
  · unfold execUnrecognized; exact ⟨_, rfl⟩

/-! ## The instructions that can raise: what each answers when it completes, and when it raises

The other instructions complete on every state, by definition of their meanings. -/

section
variable (s : State) (x y n : Nibble) (nnn : Addr12)

theorem exec_call_ok (h : s.depth.val < 16) :
    exec (.call nnn) s = .next
      ((({ s.advance with stack := s.stack.set s.depth.val (s.pc + 2) h, depth := ⟨s.depth.val + 1, by omega⟩ } : State).setPc
        (zextAddr nnn)).finish []) := by
  simp only [exec, execCall]
  exact State.execute_ok (by simp only [State.push_ok s.advance s.advance.pc h]; rfl)

theorem exec_call_full (h : s.depth.val = 16) : exec (.call nnn) s = .next (s.raise .stackOverflow) := by
  simp only [exec, execCall]
  exact State.execute_error (by simp only [State.push_full s.advance s.advance.pc h])

theorem State.advance_top : s.advance.top = s.top := rfl

/-- The top entry, named by its index. -/
theorem State.top_eq (k : Fin 16) (hk : k.val + 1 = s.depth.val) : s.top = s.stack[k] := by
  show s.stack[s.depth.val - 1] = s.stack[k.val]
  congr 1; omega

theorem exec_ret_ok (hd : s.depth.val ≠ 0) (h : s.top.toNat ≤ 0xFFF) :
    exec .ret s = .next ((({ s.advance with depth := ⟨s.depth.val - 1, by omega⟩ } : State).setPc s.top).finish []) := by
  have hp := State.pop_ok s.advance hd
  simp only [exec, execRet]
  exact State.execute_ok (by
    simp only [hp, State.advance_top]
    rw [State.transfer_ok _ h, BitVec.ofNat_toNat, BitVec.setWidth_eq]; rfl)

theorem exec_ret_beyond (hd : s.depth.val ≠ 0) (h : 0xFFF < s.top.toNat) : exec .ret s = .next (s.raise .outOfBounds) := by
  have hp := State.pop_ok s.advance hd
  simp only [exec, execRet]
  exact State.execute_error (by simp only [hp, State.advance_top]; rw [State.transfer_error _ h])

theorem exec_ret_empty (hd : s.depth.val = 0) : exec .ret s = .next (s.raise .stackUnderflow) := by
  simp only [exec, execRet]
  exact State.execute_error (by simp only [State.pop_empty s.advance hd])

theorem exec_jpV0_ok (h : nnn.toNat + (s.reg 0).toNat ≤ 0xFFF) :
    exec (.jpV0 nnn) s = .next ((s.advance.setPc (BitVec.ofNat 16 (nnn.toNat + (s.reg 0).toNat))).finish []) := by
  simp only [exec, execJpV0]
  exact State.execute_ok (State.transfer_ok s.advance h)

theorem exec_jpV0_beyond (h : 0xFFF < nnn.toNat + (s.reg 0).toNat) :
    exec (.jpV0 nnn) s = .next (s.raise .outOfBounds) := by
  simp only [exec, execJpV0]
  exact State.execute_error (State.transfer_error s.advance h)

theorem exec_addI_ok (h : s.I.toNat + (s.reg x).toNat ≤ 0xFFFF) :
    exec (.addI x) s = .next ((s.advance.setI (BitVec.ofNat 16 (s.I.toNat + (s.reg x).toNat))).finish []) := by
  simp only [exec, execAddI]
  exact State.execute_ok (if_neg (by show ¬ 0xFFFF < s.I.toNat + (s.reg x).toNat; omega))

theorem exec_addI_beyond (h : 0xFFFF < s.I.toNat + (s.reg x).toNat) : exec (.addI x) s = .next (s.raise .outOfBounds) := by
  simp only [exec, execAddI]
  exact State.execute_error (if_pos h)

theorem exec_ldF : exec (.ldF x) s = .next ((s.advance.setI (fontAddress Config.font (s.reg x))).finish []) := by
  simp only [exec, execLdF]
  exact State.execute_ok (t := s.advance.setI _) rfl

theorem exec_ldB_ok (h : s.I.toNat ≤ 0xFFD) :
    exec (.ldB x) s = .next ((s.advance.setMem (s.mem.writeBlock s.I.toNat (decimalDigits (s.reg x)))).finish []) := by
  have hs : s.advance.mem.store s.advance.I.toNat (decimalDigits (s.advance.reg x)) =
      .ok (s.mem.writeBlock s.I.toNat (decimalDigits (s.reg x))) :=
    Memory.store_ok _ (Or.inr (by show s.I.toNat + 3 ≤ _; omega))
  simp only [exec, execLdB]
  exact State.execute_ok (by simp only [hs]; rfl)

theorem exec_ldB_beyond (h : 0xFFD < s.I.toNat) : exec (.ldB x) s = .next (s.raise .outOfBounds) := by
  have hs : s.advance.mem.store s.advance.I.toNat (decimalDigits (s.advance.reg x)) = .error .outOfBounds :=
    Memory.store_error _ (by show 0 < 3 ∧ _ < s.I.toNat + 3; omega)
  simp only [exec, execLdB]
  exact State.execute_error (by simp only [hs])

theorem exec_stRegs_ok (h : s.I.toNat + x.toNat ≤ 0xFFF) :
    exec (.stRegs x) s = .next ((s.advance.setMem (s.mem.writeBlock s.I.toNat (s.regsUpTo x))).finish []) := by
  have hs : s.advance.mem.store s.advance.I.toNat (s.advance.regsUpTo x) =
      .ok (s.mem.writeBlock s.I.toNat (s.regsUpTo x)) :=
    Memory.store_ok _ (Or.inr (by rw [State.regsUpTo_length]; show s.I.toNat + _ ≤ _; omega))
  simp only [exec, execStRegs]
  exact State.execute_ok (by simp only [hs]; rfl)

theorem exec_stRegs_beyond (h : 0xFFF < s.I.toNat + x.toNat) : exec (.stRegs x) s = .next (s.raise .outOfBounds) := by
  have hs : s.advance.mem.store s.advance.I.toNat (s.advance.regsUpTo x) = .error .outOfBounds :=
    Memory.store_error _ (by rw [State.regsUpTo_length]; show _ ∧ _ < s.I.toNat + _; omega)
  simp only [exec, execStRegs]
  exact State.execute_error (by simp only [hs])

theorem exec_ldRegs_ok (h : s.I.toNat + x.toNat ≤ 0xFFF) :
    exec (.ldRegs x) s = .next ((s.advance.setRegs (s.mem.readBlock s.I.toNat (x.toNat + 1))).finish []) := by
  have hs : s.advance.mem.load s.advance.I.toNat (blockLength x) = .ok (s.mem.readBlock s.I.toNat (x.toNat + 1)) :=
    Memory.load_ok _ (Or.inr (by show s.I.toNat + (x.toNat + 1) ≤ _; omega))
  simp only [exec, execLdRegs]
  exact State.execute_ok (by simp only [hs]; rfl)

theorem exec_ldRegs_beyond (h : 0xFFF < s.I.toNat + x.toNat) : exec (.ldRegs x) s = .next (s.raise .outOfBounds) := by
  have hs : s.advance.mem.load s.advance.I.toNat (blockLength x) = .error .outOfBounds :=
    Memory.load_error _ (by show 0 < x.toNat + 1 ∧ _ < s.I.toNat + (x.toNat + 1); omega)
  simp only [exec, execLdRegs]
  exact State.execute_error (by simp only [hs])

theorem exec_drw_ok (h : n.toNat = 0 ∨ s.I.toNat + n.toNat ≤ 0x1000) :
    exec (.drw x y n) s = .next
      (s.advance.finish [.displayDraw (s.reg x) (s.reg y) n (s.mem.readBlock s.I.toNat n.toNat)]) := by
  have hs : s.advance.mem.load s.advance.I.toNat n.toNat = .ok (s.mem.readBlock s.I.toNat n.toNat) := Memory.load_ok _ h
  simp only [exec, execDrw]
  exact State.execute_ok (by simp only [hs]; rfl)

theorem exec_drw_beyond (h0 : 0 < n.toNat) (h : 0x1000 < s.I.toNat + n.toNat) :
    exec (.drw x y n) s = .next (s.raise .outOfBounds) := by
  have hs : s.advance.mem.load s.advance.I.toNat n.toNat = .error .outOfBounds := Memory.load_error _ ⟨h0, h⟩
  simp only [exec, execDrw]
  exact State.execute_error (by simp only [hs])

end

end Sys2Proof.Machine
end

