-- ==== Sys2Proof/Laws/Frame.lean ====
section
/-! SUPPORT. What an instruction and a step can do to each piece of state, said once for all 34 instructions, so that a
statement about every step is proved without unfolding a meaning. -/

namespace Sys2Proof.Machine

/-- What phase 5 of `i` may have changed between the state before the step and the state `t` at its end. -/
structure Frame (i : Instr) (s t : State) : Prop where
  inputs : t.inputs = s.inputs
  draws : t.draws = s.draws
  status : t.status = s.status ∧ (∀ x, i ≠ .ldVxK x) ∨ ∃ x, i = .ldVxK x ∧ t.status = .awaitKey x
  delay : t.DT = decay s.DT ∨ ∃ x, i = .ldDtVx x
  sound : t.ST = decay s.ST ∨ ∃ x, i = .ldStVx x
  memory : t.mem = s.mem ∨ ∃ x, i = .ldB x ∨ i = .stRegs x
  canonical : s.mem.wf = true → t.mem.wf = true
  index : t.I = s.I ∨ (∃ nnn, i = .ldI nnn) ∨ ∃ x, i = .addI x ∨ i = .ldF x
  stack : (t.depth = s.depth ∧ t.stack = s.stack) ∨ i = .ret ∨ ∃ nnn, i = .call nnn
  regs : ∀ r, t.reg r ≠ s.reg r → i.mayWriteReg r

section
variable {i : Instr} {s : State}

/-- The frame of an instruction that leaves memory, `I`, the timers and the stack alone and is not the key wait. -/
theorem Frame.ofRegs {t : State} (hk : ∀ x, i ≠ .ldVxK x) (hV : ∀ r, t.reg r ≠ s.reg r → i.mayWriteReg r)
    (h : t = { s.advance with V := t.V, pc := t.pc }) : Frame i s t := by
  rw [h] at hV ⊢
  exact ⟨rfl, rfl, .inl ⟨rfl, hk⟩, .inl rfl, .inl rfl, .inl rfl, id, .inl rfl, .inl ⟨rfl, rfl⟩, hV⟩

/-- The frame of an instruction that writes one register. -/
theorem Frame.ofSetReg {x : Nibble} {v : Byte} (hk : ∀ x, i ≠ .ldVxK x) (hx : i.mayWriteReg x) :
    Frame i s (s.advance.setReg x v) :=
  .ofRegs hk (fun r hr => by
    rw [State.reg_setReg] at hr
    split at hr
    · next h => exact h ▸ hx
    · exact absurd rfl hr) rfl

/-- The frame of an instruction that writes one register and the flag. -/
theorem Frame.ofFlagged {x : Nibble} {v f : Byte} {t : State} (hk : ∀ x, i ≠ .ldVxK x) (hx : i.mayWriteReg x)
    (hf : i.mayWriteReg 0xF) (ht : t = s.advance.resultThenFlag x v f ∨ t = s.advance.flagThenResult x f v) :
    Frame i s t := by
  have key : ∀ r, (s.advance.resultThenFlag x v f).reg r ≠ s.reg r ∨ (s.advance.flagThenResult x f v).reg r ≠ s.reg r →
      i.mayWriteReg r := by
    intro r hr
    rw [State.reg_resultThenFlag, State.reg_flagThenResult] at hr
    by_cases h1 : r = 0xF
    · exact h1 ▸ hf
    · by_cases h2 : r = x
      · exact h2 ▸ hx
      · simp only [h1, h2, if_false] at hr
        exact hr.elim (absurd rfl) (absurd rfl)
  obtain rfl | rfl := ht
  · exact .ofRegs hk (fun r hr => key r (.inl hr)) rfl
  · exact .ofRegs hk (fun r hr => key r (.inr hr)) rfl

/-- The frame of an instruction that writes `pc` alone. -/
theorem Frame.ofPc {pc : Word} (hk : ∀ x, i ≠ .ldVxK x) : Frame i s (s.advance.setPc pc) :=
  .ofRegs hk (fun _ hr => absurd rfl hr) rfl

/-- The frame of an instruction that changes nothing beyond the advance. -/
theorem Frame.ofAdvance (hk : ∀ x, i ≠ .ldVxK x) : Frame i s s.advance :=
  .ofRegs hk (fun _ hr => absurd rfl hr) rfl

/-- The frame of an instruction that writes `I` alone. -/
theorem Frame.ofI {v : Word} (hk : ∀ x, i ≠ .ldVxK x) (hI : (∃ nnn, i = .ldI nnn) ∨ ∃ x, i = .addI x ∨ i = .ldF x) :
    Frame i s (s.advance.setI v) :=
  ⟨rfl, rfl, .inl ⟨rfl, hk⟩, .inl rfl, .inl rfl, .inl rfl, id, .inr hI, .inl ⟨rfl, rfl⟩, fun _ hr => absurd rfl hr⟩

/-- The frame of an instruction that stores a block of bytes inside the address space. -/
theorem Frame.ofStore {a : Nat} {vs : List Byte} (hk : ∀ x, i ≠ .ldVxK x) (hi : ∃ x, i = .ldB x ∨ i = .stRegs x)
    (ha : a + vs.length ≤ 0x1000) : Frame i s (s.advance.setMem (s.mem.writeBlock a vs)) :=
  ⟨rfl, rfl, .inl ⟨rfl, hk⟩, .inl rfl, .inl rfl, .inr hi, fun h => Memory.writeBlock_wf vs h ha, .inl rfl,
    .inl ⟨rfl, rfl⟩, fun _ hr => absurd rfl hr⟩

end

/-- Everything an instruction can answer: it raises a cause other than UnresolvedInput and leaves the state before the
step with that cause, or it completes within its frame. -/
theorem exec_frame (i : Instr) (s : State) :
    (∃ c, exec i s = .next (s.raise c) ∧ c ≠ .unresolvedInput) ∨
      ∃ t es, exec i s = .next (t.finish es) ∧ Frame i s t := by
  cases i with
  | cls => exact .inr ⟨s.advance, _, by simp only [exec, execCls]; rfl, .ofAdvance nofun⟩
  | ret =>
    by_cases h : s.depth.val = 0
    · exact .inl ⟨_, exec_ret_empty s h, nofun⟩
    by_cases h' : s.top.toNat ≤ 0xFFF
    · exact .inr ⟨_, _, exec_ret_ok s h h', rfl, rfl, .inl ⟨rfl, nofun⟩, .inl rfl, .inl rfl, .inl rfl, id, .inl rfl,
        .inr (.inl rfl), fun _ hr => absurd rfl hr⟩
    · exact .inl ⟨_, exec_ret_beyond s h (by omega), nofun⟩
  | jp nnn => exact .inr ⟨s.advance.setPc (zextAddr nnn), _, by simp only [exec, execJp]; rfl, .ofPc nofun⟩
  | call nnn =>
    by_cases h : s.depth.val = 16
    · exact .inl ⟨_, exec_call_full s nnn h, nofun⟩
    · exact .inr ⟨_, _, exec_call_ok s nnn (by omega), rfl, rfl, .inl ⟨rfl, nofun⟩, .inl rfl, .inl rfl, .inl rfl, id,
        .inl rfl, .inr (.inr ⟨_, rfl⟩), fun _ hr => absurd rfl hr⟩
  | seImm x kk => exact .inr ⟨s.advance.setPc _, _, by simp only [exec, execSeImm]; rfl, .ofPc nofun⟩
  | sneImm x kk => exact .inr ⟨s.advance.setPc _, _, by simp only [exec, execSneImm]; rfl, .ofPc nofun⟩
  | seReg x y => exact .inr ⟨s.advance.setPc _, _, by simp only [exec, execSeReg]; rfl, .ofPc nofun⟩
  | ldImm x kk => exact .inr ⟨_, _, by simp only [exec, execLdImm]; rfl, .ofSetReg nofun rfl⟩
  | addImm x kk => exact .inr ⟨_, _, by simp only [exec, execAddImm]; rfl, .ofSetReg nofun rfl⟩
  | ldReg x y => exact .inr ⟨_, _, by simp only [exec, execLdReg]; rfl, .ofSetReg nofun rfl⟩
  | or x y => exact .inr ⟨_, _, by simp only [exec, execOr]; rfl, .ofSetReg nofun rfl⟩
  | and x y => exact .inr ⟨_, _, by simp only [exec, execAnd]; rfl, .ofSetReg nofun rfl⟩
  | xor x y => exact .inr ⟨_, _, by simp only [exec, execXor]; rfl, .ofSetReg nofun rfl⟩
  | addReg x y =>
    exact .inr ⟨_, _, by simp only [exec, execAddReg]; rfl, .ofFlagged nofun (.inl rfl) (.inr rfl) (.inl rfl)⟩
  | sub x y => exact .inr ⟨_, _, by simp only [exec, execSub]; rfl, .ofFlagged nofun (.inl rfl) (.inr rfl) (.inr rfl)⟩
  | shr x y => exact .inr ⟨_, _, by simp only [exec, execShr]; rfl, .ofFlagged nofun (.inl rfl) (.inr rfl) (.inr rfl)⟩
  | subn x y =>
    exact .inr ⟨_, _, by simp only [exec, execSubn]; rfl, .ofFlagged nofun (.inl rfl) (.inr rfl) (.inr rfl)⟩
  | shl x y => exact .inr ⟨_, _, by simp only [exec, execShl]; rfl, .ofFlagged nofun (.inl rfl) (.inr rfl) (.inr rfl)⟩
  | sneReg x y => exact .inr ⟨s.advance.setPc _, _, by simp only [exec, execSneReg]; rfl, .ofPc nofun⟩
  | ldI nnn => exact .inr ⟨_, _, by simp only [exec, execLdI]; rfl, .ofI nofun (.inl ⟨_, rfl⟩)⟩
  | jpV0 nnn =>
    by_cases h : nnn.toNat + (s.reg 0).toNat ≤ 0xFFF
    · exact .inr ⟨_, _, exec_jpV0_ok s nnn h, .ofPc nofun⟩
    · exact .inl ⟨_, exec_jpV0_beyond s nnn (by omega), nofun⟩
  | rnd x kk => exact .inr ⟨_, _, by simp only [exec, execRnd]; rfl, .ofSetReg nofun rfl⟩
  | drw x y n =>
    by_cases h : n.toNat = 0 ∨ s.I.toNat + n.toNat ≤ 0x1000
    · exact .inr ⟨_, _, exec_drw_ok s x y n h, .ofAdvance nofun⟩
    · exact .inl ⟨_, exec_drw_beyond s x y n (by omega) (by omega), nofun⟩
  | skp x => exact .inr ⟨s.advance.setPc _, _, by simp only [exec, execSkp]; rfl, .ofPc nofun⟩
  | sknp x => exact .inr ⟨s.advance.setPc _, _, by simp only [exec, execSknp]; rfl, .ofPc nofun⟩
  | ldVxDt x => exact .inr ⟨_, _, by simp only [exec, execLdVxDt]; rfl, .ofSetReg nofun rfl⟩
  | ldVxK x =>
    exact .inr ⟨s.advance.setStatus (.awaitKey x), _, by simp only [exec, execLdVxK]; rfl, rfl, rfl, .inr ⟨x, rfl, rfl⟩,
      .inl rfl, .inl rfl, .inl rfl, id, .inl rfl, .inl ⟨rfl, rfl⟩, fun _ hr => absurd rfl hr⟩
  | ldDtVx x =>
    exact .inr ⟨s.advance.setDT (s.reg x), _, by simp only [exec, execLdDtVx]; rfl, rfl, rfl, .inl ⟨rfl, nofun⟩,
      .inr ⟨x, rfl⟩, .inl rfl, .inl rfl, id, .inl rfl, .inl ⟨rfl, rfl⟩, fun _ hr => absurd rfl hr⟩
  | ldStVx x =>
    exact .inr ⟨s.advance.setST (s.reg x), _, by simp only [exec, execLdStVx]; rfl, rfl, rfl, .inl ⟨rfl, nofun⟩,
      .inl rfl, .inr ⟨x, rfl⟩, .inl rfl, id, .inl rfl, .inl ⟨rfl, rfl⟩, fun _ hr => absurd rfl hr⟩
  | addI x =>
    by_cases h : s.I.toNat + (s.reg x).toNat ≤ 0xFFFF
    · exact .inr ⟨_, _, exec_addI_ok s x h, .ofI nofun (.inr ⟨_, .inl rfl⟩)⟩
    · exact .inl ⟨_, exec_addI_beyond s x (by omega), nofun⟩
  | ldF x => exact .inr ⟨_, _, exec_ldF s x, .ofI nofun (.inr ⟨_, .inr rfl⟩)⟩
  | ldB x =>
    by_cases h : s.I.toNat ≤ 0xFFD
    · exact .inr ⟨_, _, exec_ldB_ok s x h, .ofStore nofun ⟨_, .inl rfl⟩ (by show s.I.toNat + 3 ≤ 0x1000; omega)⟩
    · exact .inl ⟨_, exec_ldB_beyond s x (by omega), nofun⟩
  | stRegs x =>
    by_cases h : s.I.toNat + x.toNat ≤ 0xFFF
    · exact .inr ⟨_, _, exec_stRegs_ok s x h, .ofStore nofun ⟨_, .inr rfl⟩ (by rw [State.regsUpTo_length]; omega)⟩
    · exact .inl ⟨_, exec_stRegs_beyond s x (by omega), nofun⟩
  | ldRegs x =>
    by_cases h : s.I.toNat + x.toNat ≤ 0xFFF
    · refine .inr ⟨_, _, exec_ldRegs_ok s x h, .ofRegs nofun (fun r hr => ?_) rfl⟩
      rw [State.reg_setRegs] at hr
      split at hr
      · next hl => rw [Memory.readBlock_length] at hl; exact Nat.le_of_lt_succ hl
      · exact absurd rfl hr
    · exact .inl ⟨_, exec_ldRegs_beyond s x (by omega), nofun⟩

theorem execUnrecognized_eq (w : Word) (s : State) :
    execUnrecognized w s = .next (s.advance.finish [.decodeMiss w]) := by
  simp only [execUnrecognized]; rfl

/-- Where the step reaches its decode phase it runs the word at `pc`. -/
theorem step_eq_runWord {s : State} (h : s.CanFetch) : step s = s.runWord s.wordAtPc := by
  obtain ⟨c, h1, _⟩ | ⟨x, h1, _⟩ | ⟨_, h2, _⟩ | ⟨_, _, h3⟩ := s.cycle_cases
  · rw [h.1] at h1; cases h1
  · rw [h.1] at h1; cases h1
  · exact absurd h.2 (by omega)
  · exact h3

/-! ## Runs of the host interface -/

theorem run_zero (s : State) : Host.Core.run Sys2Proof.core 0 s = .next s := by simp only [Host.Core.run]

theorem run_next {s t : State} (n : Nat) (h : step s = .next t) :
    Host.Core.run Sys2Proof.core (n + 1) s = Host.Core.run Sys2Proof.core n t := by
  have h' : Sys2Proof.core.step s = .next t := h
  simp only [Host.Core.run, h']

end Sys2Proof.Machine
end

