-- ==== Sys2Proof/Laws/PerInstr.lean ====
section
/-! SUPPORT. The family FixedBits, one lemma per instruction: the word of an instruction has the match bits of its row of
R66 under the row's mask. -/

namespace Sys2Proof.Laws.FixedBits

/-- `w AND mask = match` for the instruction's own word (R66). -/
def Statement (i : Instr) : Prop := encode i &&& i.opcodeRow.mask = i.opcodeRow.bits

theorem cls : Statement .cls := rfl
theorem ret : Statement .ret := rfl
theorem jp (nnn : Addr12) : Statement (.jp nnn) := mask_F000 _ _
theorem call (nnn : Addr12) : Statement (.call nnn) := mask_F000 _ _
theorem seImm (x : Nibble) (kk : Byte) : Statement (.seImm x kk) := mask_F000_layoutI _ _ _
theorem sneImm (x : Nibble) (kk : Byte) : Statement (.sneImm x kk) := mask_F000_layoutI _ _ _
theorem seReg (x : Nibble) (y : Nibble) : Statement (.seReg x y) := mask_F00F _ _ _ _
theorem ldImm (x : Nibble) (kk : Byte) : Statement (.ldImm x kk) := mask_F000_layoutI _ _ _
theorem addImm (x : Nibble) (kk : Byte) : Statement (.addImm x kk) := mask_F000_layoutI _ _ _
theorem ldReg (x : Nibble) (y : Nibble) : Statement (.ldReg x y) := mask_F00F _ _ _ _
theorem or (x : Nibble) (y : Nibble) : Statement (.or x y) := mask_F00F _ _ _ _
theorem and (x : Nibble) (y : Nibble) : Statement (.and x y) := mask_F00F _ _ _ _
theorem xor (x : Nibble) (y : Nibble) : Statement (.xor x y) := mask_F00F _ _ _ _
theorem addReg (x : Nibble) (y : Nibble) : Statement (.addReg x y) := mask_F00F _ _ _ _
theorem sub (x : Nibble) (y : Nibble) : Statement (.sub x y) := mask_F00F _ _ _ _
theorem shr (x : Nibble) (y : Nibble) : Statement (.shr x y) := mask_F00F _ _ _ _
theorem subn (x : Nibble) (y : Nibble) : Statement (.subn x y) := mask_F00F _ _ _ _
theorem shl (x : Nibble) (y : Nibble) : Statement (.shl x y) := mask_F00F _ _ _ _
theorem sneReg (x : Nibble) (y : Nibble) : Statement (.sneReg x y) := mask_F00F _ _ _ _
theorem ldI (nnn : Addr12) : Statement (.ldI nnn) := mask_F000 _ _
theorem jpV0 (nnn : Addr12) : Statement (.jpV0 nnn) := mask_F000 _ _
theorem rnd (x : Nibble) (kk : Byte) : Statement (.rnd x kk) := mask_F000_layoutI _ _ _
theorem drw (x : Nibble) (y : Nibble) (n : Nibble) : Statement (.drw x y n) := mask_F000_layoutD _ _ _ _
theorem skp (x : Nibble) : Statement (.skp x) := mask_F0FF _ _ _
theorem sknp (x : Nibble) : Statement (.sknp x) := mask_F0FF _ _ _
theorem ldVxDt (x : Nibble) : Statement (.ldVxDt x) := mask_F0FF _ _ _
theorem ldVxK (x : Nibble) : Statement (.ldVxK x) := mask_F0FF _ _ _
theorem ldDtVx (x : Nibble) : Statement (.ldDtVx x) := mask_F0FF _ _ _
theorem ldStVx (x : Nibble) : Statement (.ldStVx x) := mask_F0FF _ _ _
theorem addI (x : Nibble) : Statement (.addI x) := mask_F0FF _ _ _
theorem ldF (x : Nibble) : Statement (.ldF x) := mask_F0FF _ _ _
theorem ldB (x : Nibble) : Statement (.ldB x) := mask_F0FF _ _ _
theorem stRegs (x : Nibble) : Statement (.stRegs x) := mask_F0FF _ _ _
theorem ldRegs (x : Nibble) : Statement (.ldRegs x) := mask_F0FF _ _ _

end Sys2Proof.Laws.FixedBits
end

