-- ==== Sys2Proof/Tests/Slice0.lean ====
section
/-! SUPPORT. The model's own tests. Every expected value is one the spec writes out (spec/95_test_vectors.md: the decode
table of its section 2.1, the vectors V1 to V124, HV1 to HV8; 60_exceptions.md; 30_encoding.md), named in each docstring
or theorem name. After them, one witness for the hypotheses of every statement that has any. -/

namespace Sys2Proof.Tests
open Sys2Proof Sys2Proof.Machine

/-! ## Helpers -/

/-- The state after one step. -/
def after (s : State) : Option State :=
  match step s with
  | .next t => some t
  | .fault _ => none
  | .refused _ => none

/-- One word run from a state, and a view of the state after it. -/
def run {α : Type} (s : State) (w : Nat) (view : State → α) : Option α := (after (s.withFetchWord 16 w)).map view

/-- The reset state with some registers set. -/
def regs (vs : List (Nibble × Byte)) : State := vs.foldl (fun s v => s.setReg v.1 v.2) State.reset

/-- The reset state with bytes at an address. -/
def bytesAt (a : Nat) (vs : List Byte) : State := State.reset.setMem (State.reset.mem.writeBlock a vs)

/-- The reset state with the given entries on the call stack, oldest first. -/
def stacked (entries : List Word) : State :=
  entries.foldl (fun s v => match s.push v with | .ok t => t | .error _ => s) State.reset

/-- A state with the inputs of the coming step. -/
def given (s : State) (rand : Byte) (pressed : List Byte) : State := { s with inputs := [⟨rand, pressed⟩] }

/-- `pc`, one register and VF. -/
def pcRegVF (x : Nibble) (t : State) : Word × Byte × Byte := (t.pc, t.reg x, t.reg 0xF)

/-- `pc`, `status` and what the step returned. -/
def pcStatusResult (t : State) : Word × Status × Option StepResult := (t.pc, t.status, t.result)

/-- `pc` and the step's events. -/
def pcEvents (t : State) : Word × Option StepResult := (t.pc, t.result)

/-- What a step that raises `c` at the reset `pc` shows. -/
def raised (c : Cause) : Option (Word × Status × Option StepResult) := some (0x200, .fatal c, some (.error c))

/-! ## WellFormed refuses what does not fit -/

theorem test_nibble_15_accepted : nibbleOperand? 15 = some 0xF := by decide
theorem test_nibble_16_refused : nibbleOperand? 16 = none := by decide
theorem test_byte_255_accepted : byteOperand? 255 = some 0xFF := by decide
theorem test_byte_256_refused : byteOperand? 256 = none := by decide
theorem test_addr_FFF_accepted : addrOperand? 0xFFF = some 0xFFF := by decide
theorem test_addr_1000_refused : addrOperand? 0x1000 = none := by decide
/-- HV3, HV4: 3584 bytes fit, 3585 do not. -/
theorem test_image_bounds : imageFits (List.replicate 3584 0) = true ∧ imageFits (List.replicate 3585 0) = false := by
  rw [imageFits, imageFits, List.length_replicate, List.length_replicate]
  decide
/-- R142: base + stride * 255 must not exceed 0xFFFF. -/
theorem test_font_bounds :
    FontParams.wf ⟨0x000, 5⟩ = true ∧ FontParams.wf ⟨0, 257⟩ = true ∧ FontParams.wf ⟨1, 257⟩ = false := by decide
/-- R60: one byte is no instruction. -/
theorem test_truncated_bytes_refused : decodeBytes [0x60] = .error (.truncated 1) := by decide

/-! ## Decoding: the table of 95_test_vectors.md section 2.1 -/

theorem test_decode_00E0 : decode 0x00E0 = .instr .cls := by decide
theorem test_decode_00EE : decode 0x00EE = .instr .ret := by decide
theorem test_decode_1000 : decode 0x1000 = .instr (.jp 0x000) := by decide
theorem test_decode_1ABC : decode 0x1ABC = .instr (.jp 0xABC) := by decide
theorem test_decode_1FFF : decode 0x1FFF = .instr (.jp 0xFFF) := by decide
theorem test_decode_2ABC : decode 0x2ABC = .instr (.call 0xABC) := by decide
theorem test_decode_3A7F : decode 0x3A7F = .instr (.seImm 0xA 0x7F) := by decide
theorem test_decode_4F00 : decode 0x4F00 = .instr (.sneImm 0xF 0x00) := by decide
theorem test_decode_5AB0 : decode 0x5AB0 = .instr (.seReg 0xA 0xB) := by decide
theorem test_decode_6C3D : decode 0x6C3D = .instr (.ldImm 0xC 0x3D) := by decide
theorem test_decode_7E01 : decode 0x7E01 = .instr (.addImm 0xE 0x01) := by decide
theorem test_decode_8120 : decode 0x8120 = .instr (.ldReg 0x1 0x2) := by decide
theorem test_decode_8AB1 : decode 0x8AB1 = .instr (.or 0xA 0xB) := by decide
theorem test_decode_8AB2 : decode 0x8AB2 = .instr (.and 0xA 0xB) := by decide
theorem test_decode_8AB3 : decode 0x8AB3 = .instr (.xor 0xA 0xB) := by decide
theorem test_decode_8AB4 : decode 0x8AB4 = .instr (.addReg 0xA 0xB) := by decide
theorem test_decode_8AB5 : decode 0x8AB5 = .instr (.sub 0xA 0xB) := by decide
theorem test_decode_8AB6 : decode 0x8AB6 = .instr (.shr 0xA 0xB) := by decide
theorem test_decode_8AB7 : decode 0x8AB7 = .instr (.subn 0xA 0xB) := by decide
theorem test_decode_8ABE : decode 0x8ABE = .instr (.shl 0xA 0xB) := by decide
theorem test_decode_9AB0 : decode 0x9AB0 = .instr (.sneReg 0xA 0xB) := by decide
theorem test_decode_A123 : decode 0xA123 = .instr (.ldI 0x123) := by decide
theorem test_decode_BFFF : decode 0xBFFF = .instr (.jpV0 0xFFF) := by decide
theorem test_decode_C5A5 : decode 0xC5A5 = .instr (.rnd 0x5 0xA5) := by decide
theorem test_decode_D12F : decode 0xD12F = .instr (.drw 0x1 0x2 0xF) := by decide
theorem test_decode_D000 : decode 0xD000 = .instr (.drw 0x0 0x0 0x0) := by decide
theorem test_decode_E59E : decode 0xE59E = .instr (.skp 0x5) := by decide
theorem test_decode_E5A1 : decode 0xE5A1 = .instr (.sknp 0x5) := by decide
theorem test_decode_E09E : decode 0xE09E = .instr (.skp 0x0) := by decide
theorem test_decode_EFA1 : decode 0xEFA1 = .instr (.sknp 0xF) := by decide
theorem test_decode_F507 : decode 0xF507 = .instr (.ldVxDt 0x5) := by decide
theorem test_decode_F50A : decode 0xF50A = .instr (.ldVxK 0x5) := by decide
theorem test_decode_F515 : decode 0xF515 = .instr (.ldDtVx 0x5) := by decide
theorem test_decode_F518 : decode 0xF518 = .instr (.ldStVx 0x5) := by decide
theorem test_decode_F51E : decode 0xF51E = .instr (.addI 0x5) := by decide
theorem test_decode_F529 : decode 0xF529 = .instr (.ldF 0x5) := by decide
theorem test_decode_F533 : decode 0xF533 = .instr (.ldB 0x5) := by decide
theorem test_decode_F555 : decode 0xF555 = .instr (.stRegs 0x5) := by decide
theorem test_decode_F565 : decode 0xF565 = .instr (.ldRegs 0x5) := by decide

/-- The UNRECOGNIZED words of the table. -/
theorem test_decode_unrecognized :
    ([0x0000, 0x00E1, 0x00EF, 0x01E0, 0x0FEE, 0x0FFF, 0x5AB1, 0x5ABF, 0x8AB8, 0x8ABD, 
      0x8ABF, 0x9AB8, 0xE59F, 0xE5A0, 0xF500, 0xF575, 0xF585, 0xF530, 0xFFFF] : List Word).all
      (fun w => decide (decode w = .unrecognized w)) = true := by decide

/-- The encoder gives the same words back, one per layout. -/
theorem test_encode_words :
    encode .cls = 0x00E0 ∧ encode (.jp 0xABC) = 0x1ABC ∧ encode (.ldImm 0xC 0x3D) = 0x6C3D ∧
      encode (.shl 0xA 0xB) = 0x8ABE ∧ encode (.drw 1 2 0xF) = 0xD12F ∧ encode (.ldRegs 5) = 0xF565 := by decide

/-- The table numbers the word's bits from 0, and memory holds the high byte first. -/
theorem test_table_word : decodeTableWord 16 0x8AB6 = some (.shr 0xA 0xB) ∧ tableWordBytes 16 0x8AB6 = [0x8A, 0xB6] := by
  decide

/-- Listing syntax (R72): the listings of programs P1 and P3. -/
theorem test_listing_LD : (decode 0x6005).listing = "LD V0, 0x05" := rfl
theorem test_listing_SHR : (decode 0x8006).listing = "SHR V0" := rfl
theorem test_listing_store : (decode 0xF155).listing = "LD [I], V1" := rfl
theorem test_listing_data : (decode 0x0000).listing = "DW 0x0000" := rfl

/-! ## One step per instruction, at most two each: the vectors of 95_test_vectors.md -/

/-! ### Control flow (section 2.2) -/

theorem test_V6_ret :
    run { stacked [0x302] with pc := 0x400 } 0x00EE (fun t => (t.pc, t.depth.val)) = some (0x302, 0) := by decide
theorem test_V10_ret_beyond :
    run { stacked [0x1000] with pc := 0x400 } 0x00EE (fun t => (pcStatusResult t, t.depth.val)) =
      some ((0x400, .fatal .outOfBounds, some (.error .outOfBounds)), 1) := by decide
theorem test_V9_ret_empty : run State.reset 0x00EE pcStatusResult = raised .stackUnderflow := by decide
theorem test_V1_jp : run State.reset 0x1234 (·.pc) = some 0x234 := by decide
theorem test_V3_jp_FFF : run State.reset 0x1FFF (·.pc) = some 0xFFF := by decide
theorem test_V11_call :
    run { State.reset with pc := 0xFFE } 0x2400 (fun t => (t.pc, t.depth.val, t.top)) = some (0x400, 1, 0x1000) := by decide
theorem test_V8_call_full :
    run (stacked (List.replicate 16 0x202)) 0x2ABC (fun t => (pcStatusResult t, t.depth.val)) =
      some ((0x200, .fatal .stackOverflow, some (.error .stackOverflow)), 16) := by decide
theorem test_V13_jpV0 : run (regs [(0, 0xFF)]) 0xBF00 (·.pc) = some 0xFFF := by decide
theorem test_V15_jpV0_uses_V0 : run (regs [(0, 0x10), (3, 0x77)]) 0xB300 (·.pc) = some 0x310 := by decide
theorem test_V14_jpV0_beyond : run (regs [(0, 0xFF)]) 0xBF01 pcStatusResult = raised .outOfBounds := by decide
theorem test_V16_V17_seImm :
    (run (regs [(3, 0x2A)]) 0x332A (·.pc), run (regs [(3, 0x2A)]) 0x332B (·.pc)) = (some 0x204, some 0x202) := by decide
theorem test_V18_V19_sneImm :
    (run (regs [(3, 0x2A)]) 0x432A (·.pc), run (regs [(3, 0x2A)]) 0x432B (·.pc)) = (some 0x202, some 0x204) := by decide
theorem test_V20_V21_seReg :
    (run (regs [(1, 7), (2, 7)]) 0x5120 (·.pc), run (regs [(1, 7), (2, 8)]) 0x5120 (·.pc)) = (some 0x204, some 0x202) := by decide
theorem test_V23_V24_sneReg :
    (run (regs [(1, 7), (2, 8)]) 0x9120 (·.pc), run (regs [(1, 7), (2, 7)]) 0x9120 (·.pc)) = (some 0x204, some 0x202) := by decide

/-! ### Loads, arithmetic, logic, shifts, random (section 2.3) -/

theorem test_V27_ldImm : run State.reset 0x6A42 (pcRegVF 0xA) = some (0x202, 0x42, 0) := by decide
theorem test_V29_addImm : run (regs [(1, 0xFF)]) 0x7102 (pcRegVF 1) = some (0x202, 0x01, 0) := by decide
theorem test_V31_addImm_VF : run (regs [(0xF, 0xFE)]) 0x7F03 (pcRegVF 0xF) = some (0x202, 0x01, 0x01) := by decide
theorem test_V32_ldReg : run (regs [(2, 0x33)]) 0x8120 (pcRegVF 1) = some (0x202, 0x33, 0) := by decide
theorem test_V33_or : run (regs [(1, 0xF0), (2, 0x0F), (0xF, 1)]) 0x8121 (pcRegVF 1) = some (0x202, 0xFF, 1) := by decide
theorem test_V34_and : run (regs [(1, 0xF3), (2, 0x3F), (0xF, 1)]) 0x8122 (pcRegVF 1) = some (0x202, 0x33, 1) := by decide
theorem test_V35_xor : run (regs [(1, 0xFF), (2, 0x0F), (0xF, 1)]) 0x8123 (pcRegVF 1) = some (0x202, 0xF0, 1) := by decide
theorem test_V40_addReg :
    run (regs [(1, 0x80), (2, 0x7F), (0xF, 1)]) 0x8124 (pcRegVF 1) = some (0x202, 0xFF, 0) := by decide
theorem test_V42_addReg_x_is_F :
    run (regs [(0xF, 0xFF), (1, 0x02)]) 0x8F14 (pcRegVF 0xF) = some (0x202, 0x01, 0x01) := by decide
theorem test_V45_sub : run (regs [(1, 0x05), (2, 0x0A), (0xF, 1)]) 0x8125 (pcRegVF 1) = some (0x202, 0xFB, 0) := by decide
theorem test_V49_sub_x_is_F :
    run (regs [(0xF, 0x0A), (1, 0x03)]) 0x8F15 (pcRegVF 0xF) = some (0x202, 0x07, 0x07) := by decide
theorem test_V53_shr : run (regs [(1, 0x01), (2, 0xFF)]) 0x8126 (pcRegVF 1) = some (0x202, 0x00, 1) := by decide
theorem test_V55_shr_x_is_F : run (regs [(0xF, 0x03)]) 0x8F06 (pcRegVF 0xF) = some (0x202, 0x01, 0x01) := by decide
theorem test_V57_subn : run (regs [(1, 0x0A), (2, 0x05), (0xF, 1)]) 0x8127 (pcRegVF 1) = some (0x202, 0xFB, 0) := by decide
theorem test_V58_subn_equal :
    run (regs [(1, 0x07), (2, 0x07), (0xF, 1)]) 0x8127 (pcRegVF 1) = some (0x202, 0x00, 0) := by decide
theorem test_V62_shl : run (regs [(1, 0xFF)]) 0x812E (pcRegVF 1) = some (0x202, 0xFE, 1) := by decide
theorem test_V63_shl_x_is_F : run (regs [(0xF, 0x81)]) 0x8F0E (pcRegVF 0xF) = some (0x202, 0x02, 0x02) := by decide
theorem test_V64_rnd : run (given State.reset 0xB7 []) 0xC30F (pcRegVF 3) = some (0x202, 0x07, 0) := by decide
theorem test_V66_rnd_through : run (given State.reset 0xA5 []) 0xC3FF (pcRegVF 3) = some (0x202, 0xA5, 0) := by decide

/-! ### Index register and memory (section 2.4) -/

theorem test_V68_ldI :
    run { State.reset with I := 0x0123 } 0xAFFF (fun t => (t.pc, t.I)) = some (0x202, 0x0FFF) := by decide
theorem test_V70_addI :
    run { regs [(2, 1)] with I := 0x0FFF } 0xF21E (fun t => (t.pc, t.I, t.reg 0xF)) = some (0x202, 0x1000, 0) := by decide
theorem test_V72_addI_beyond :
    run { regs [(2, 1)] with I := 0xFFFF } 0xF21E pcStatusResult = raised .outOfBounds := by decide
/-- V73, V75: under the defaults of FONT_BASE and FONT_STRIDE. -/
theorem test_V73_V75_ldF : (fontAddress ⟨0x000, 5⟩ 0x0A, fontAddress ⟨0x000, 5⟩ 0xFF) = (0x0032, 0x04FB) := by decide
/-- V73 without the value of `I`, which the open parameters decide (log 6). -/
theorem test_ldF_completes : run (regs [(4, 0x0A)]) 0xF429 (fun t => (t.pc, t.status)) = some (0x202, .running) := by decide
theorem test_V78_ldB :
    run { regs [(7, 0xFF)] with I := 0xFFD } 0xF733 (fun t => (t.pc, t.mem.readBlock 0xFFD 3)) =
      some (0x202, [0x02, 0x05, 0x05]) := by decide
theorem test_V79_ldB_beyond :
    run { regs [(7, 0xFF)] with I := 0xFFE } 0xF733 (fun t => (pcStatusResult t, t.mem.readBlock 0xFFE 2)) =
      some ((0x200, .fatal .outOfBounds, some (.error .outOfBounds)), [0x00, 0x00]) := by decide
theorem test_V80_stRegs :
    run { regs [(0, 0x6A), (1, 0x42), (2, 0x99)] with I := 0x210 } 0xF155 (fun t => (t.I, t.mem.readBlock 0x210 3)) =
      some (0x210, [0x6A, 0x42, 0x00]) := by decide
theorem test_V83_stRegs_beyond :
    run { regs [(0, 1)] with I := 0xFF1 } 0xFF55 (fun t => (pcStatusResult t, t.mem.read 0xFF1)) =
      some ((0x200, .fatal .outOfBounds, some (.error .outOfBounds)), 0x00) := by decide
theorem test_V84_ldRegs :
    run { bytesAt 0x300 [0x02, 0x05, 0x04, 0x07] with I := 0x300 } 0xF265 (fun t => (t.reg 0, t.reg 1, t.reg 2, t.reg 3)) =
      some (0x02, 0x05, 0x04, 0x00) := by decide
theorem test_V86_ldRegs_beyond :
    run { regs [(0, 9), (1, 9)] with I := 0xFFF } 0xF165 (fun t => (pcStatusResult t, t.reg 0, t.reg 1)) =
      some ((0x200, .fatal .outOfBounds, some (.error .outOfBounds)), 9, 9) := by decide

/-! ### Timers (section 2.5) -/

theorem test_V88_ldVxDt : run { State.reset with DT := 5 } 0xF307 (fun t => (t.reg 3, t.DT)) = some (0x04, 4) := by decide
theorem test_V90_ldDtVx : run (regs [(0, 5)]) 0xF015 (fun t => (t.pc, t.DT)) = some (0x202, 5) := by decide
theorem test_V91_ldDtVx_zero :
    run { State.reset with DT := 9 } 0xF015 (fun t => (t.pc, t.DT)) = some (0x202, 0) := by decide
theorem test_V92_ldStVx : run (regs [(1, 0x1E)]) 0xF118 (fun t => (t.pc, t.ST)) = some (0x202, 30) := by decide
theorem test_V95_decay :
    run { State.reset with DT := 255, ST := 7 } 0x0000 (fun t => (t.DT, t.ST)) = some (254, 6) := by decide
theorem test_V96_fatal_keeps_timers :
    run { stacked (List.replicate 16 0x202) with DT := 3, ST := 3 } 0x2200 (fun t => (t.pc, t.DT, t.ST)) =
      some (0x200, 3, 3) := by decide

/-! ### Collaborator operations, key wait, unrecognized words (section 2.6) -/

theorem test_V97_cls : run State.reset 0x00E0 pcEvents = some (0x202, some (.ok [.displayClear])) := by decide
theorem test_V98_drw :
    run { (bytesAt 0x300 [0xF0, 0x90]).setReg 1 0x0A |>.setReg 2 0x05 with I := 0x300 } 0xD122 pcEvents =
      some (0x202, some (.ok [.displayDraw 10 5 2 [0xF0, 0x90]])) := by decide
theorem test_V99_drw_none :
    run { regs [(1, 0x0A), (2, 0x05)] with I := 0xFFFF } 0xD120 pcEvents =
      some (0x202, some (.ok [.displayDraw 10 5 0 []])) := by decide
theorem test_V101_drw_beyond : run { State.reset with I := 0xFFF } 0xD002 pcStatusResult = raised .outOfBounds := by decide
theorem test_V102_V103_skp :
    (run (given (regs [(2, 7)]) 0 [7]) 0xE29E (·.pc), run (given (regs [(2, 7)]) 0 [8]) 0xE29E (·.pc)) =
      (some 0x204, some 0x202) := by decide
theorem test_V106_skp_full_number : run (given (regs [(2, 0xFF)]) 0 [0xFF]) 0xE29E (·.pc) = some 0x204 := by decide
theorem test_V104_V105_sknp :
    (run (given (regs [(2, 7)]) 0 [7]) 0xE2A1 (·.pc), run (given (regs [(2, 7)]) 0 []) 0xE2A1 (·.pc)) =
      (some 0x202, some 0x204) := by decide
theorem test_V107_ldVxK : run State.reset 0xF50A (fun t => (t.pc, t.status)) = some (0x202, .awaitKey 5) := by decide
theorem test_V107_key_delivered :
    run State.reset 0xF50A (fun t => ((t.supplyKey 0x0B).reg 5, (t.supplyKey 0x0B).status)) = some (0x0B, .running) := by decide
theorem test_V111_V114_unrecognized :
    (run State.reset 0x5121 pcEvents, run (stacked [0x300]) 0x0AEE (fun t => (t.pc, t.depth.val))) =
      (some (0x202, some (.ok [.decodeMiss 0x5121])), some (0x202, 1)) := by decide

/-! ### The cycle (sections 2.6 and 2.7) -/

theorem test_V108_step_while_awaiting :
    (after { bytesAt 0x202 [0x60, 0x00] with status := .awaitKey 5, pc := 0x202 }).map pcStatusResult =
      some (0x202, .fatal .unresolvedInput, some (.error .unresolvedInput)) := by decide
theorem test_V109_step_in_fatal :
    (after { bytesAt 0x200 [0x60, 0x11] with status := .fatal .stackUnderflow }).map (fun t => (pcStatusResult t, t.reg 0)) =
      some ((0x200, .fatal .stackUnderflow, some (.error .stackUnderflow)), 0) := by decide
theorem test_V120_fetch_at_FFF :
    (after { State.reset with pc := 0xFFF }).map pcStatusResult =
      some (0xFFF, .fatal .outOfBounds, some (.error .outOfBounds)) := by decide
theorem test_V122_last_fetch :
    run { State.reset with pc := 0xFFE } 0x6122 (fun t => (t.pc, t.reg 1)) = some (0x1000, 0x22) := by decide
theorem test_V123_odd_pc :
    (after { bytesAt 0x200 [0xAA, 0x60, 0x12, 0xBB] with pc := 0x201 }).map (fun t => (t.pc, t.reg 0)) =
      some (0x203, 0x12) := by decide
theorem test_V124_byte_order : run State.reset 0x0060 pcEvents = some (0x202, some (.ok [.decodeMiss 0x0060])) := by decide

/-! ### Host operations (section 2.8) -/

/-- HV2. -/
theorem test_HV2_load :
    (State.reset.loadImage [0x60, 0x05, 0x12, 0x00]).1 = .ok ∧
      (State.reset.loadImage [0x60, 0x05, 0x12, 0x00]).2.mem.readBlock 0x1FF 6 = [0x00, 0x60, 0x05, 0x12, 0x00, 0x00] := by
  decide
/-- HV5: an odd length. -/
theorem test_HV5_odd_image : (State.reset.loadImage [0xAB]).2.mem.readBlock 0x200 2 = [0xAB, 0x00] := by decide
/-- HV6. -/
theorem test_HV6_supply_key :
    ({ State.reset with status := .awaitKey 15 }.supplyKey 0xFF).reg 0xF = 0xFF ∧ State.reset.supplyKey 0x0B = State.reset := by
  decide
/-- HV1: from the end state of program P5. -/
theorem test_HV1_reset :
    { stacked (List.replicate 16 0x202) with status := .fatal .stackOverflow }.hostReset Config.memInitDefault = State.reset := by
  rw [State.hostReset, State.resetWith_default]
  decide
/-- R26 for a MEM_INIT with one font byte: a reset puts it into memory. -/
theorem test_reset_with_mem_init :
    (State.resetWith (fun a => if a = 0x050 then 0xF0 else 0x00)).mem.read 0x050 = 0xF0 ∧
      (State.resetWith (fun a => if a = 0x050 then 0xF0 else 0x00)).mem.read 0x051 = 0x00 := by
  rw [State.resetWith_mem, Memory.read_initial _ (by decide), Memory.read_initial _ (by decide)]
  decide
/-- Memory is canonical: writing the value an unlisted address reads as removes the entry (log 5). -/
theorem test_memory_canonical :
    ((Memory.write [] 0x300 0x11).write 0x2FF 0x22).write 0x300 0x00 = [(0x2FF, 0x22)] ∧
      Memory.wf [(0x300, 0x11), (0x2FF, 0x22)] = false ∧ Memory.wf [(0x300, 0x00)] = false ∧
      Memory.wf [(0x1000, 0x11)] = false := by decide

/-! ## Witnesses

For every statement with hypotheses, a concrete state and operands that meet all of them, at the boundary values of each
clause. The theorem is named after the statement. -/

/-- A completed status. -/
def completedStatus : Status → Bool
  | .fatal _ => false
  | .running => true
  | .awaitKey _ => true

theorem completedStatus_notFatal {t : State} (h : completedStatus t.status = true) : t.NotFatal := by
  intro c hc
  rw [hc] at h
  cases h

/-- The step at `s` fetches the word that decodes to `d`, and it completes. -/
abbrev Runs (s : State) (d : Decoded) : Prop :=
  s.CanFetch ∧ decode s.wordAtPc = d ∧ ∃ t, step s = .next t ∧ t.NotFatal

/-- The same as a test that evaluates. -/
def runsTest (s : State) (d : Decoded) : Bool :=
  decide s.CanFetch && decide (decode s.wordAtPc = d) &&
    match step s with
    | .next t => completedStatus t.status
    | .fault _ => false
    | .refused _ => false

theorem runs_of {s : State} {d : Decoded} (h : runsTest s d = true) : Runs s d := by
  simp only [runsTest, Bool.and_eq_true, decide_eq_true_eq] at h
  refine ⟨h.1.1, h.1.2, ?_⟩
  have h2 := h.2
  revert h2
  cases step s with
  | next t => exact fun h2 => ⟨t, rfl, completedStatus_notFatal h2⟩
  | fault f => intro h2; cases h2
  | refused r => intro h2; cases h2

/-- A word at an address that fetches it next. -/
def placed (s : State) (pc : Word) (w : Nat) : State := { s with pc := pc }.withFetchWord 16 w

/-- A state that meets the invariant away from reset: `pc` at its bound, stack entries at both of theirs, memory listed. -/
def invState : State :=
  { stacked [0x002, 0x1000] with pc := 0x1002, mem := [(0x000, 0x11), (0xFFF, 0x22)] }

theorem witness_EncodeOfDecodeGivesTheWord : decode 0x8AB6 = .instr (.shr 0xA 0xB) := by decide

theorem witness_DecodeFollowsTheOpcodeTable_row :
    ⟨34, 0xF065, 0xF0FF⟩ ∈ opcodeTable ∧ OpcodeRow.matchesWord ⟨34, 0xF065, 0xF0FF⟩ 0xFF65 = true := by decide

theorem witness_DecodeFollowsTheOpcodeTable_instr : decode 0xFF65 = .instr (.ldRegs 0xF) := by decide

theorem witness_DecodeFollowsTheOpcodeTable_none :
    opcodeTable.all (fun r => !r.matchesWord 0x00E1) = true ∧ decode 0x00E1 = .unrecognized 0x00E1 := by decide

/-- The five clauses, at words next to ones that are recognized. -/
theorem witness_UnrecognizedSpaceIsExact :
    decode 0x00E1 = .unrecognized 0x00E1 ∧ decode 0x5AB1 = .unrecognized 0x5AB1 ∧ decode 0x9ABF = .unrecognized 0x9ABF ∧
      decode 0x8AB8 = .unrecognized 0x8AB8 ∧ decode 0x8ABF = .unrecognized 0x8ABF ∧ decode 0xE59F = .unrecognized 0xE59F ∧
      decode 0xF566 = .unrecognized 0xF566 := by decide

theorem witness_StepRunsTheDecodedInstruction_instr :
    (placed State.reset 0xFFE 0x6122).CanFetch ∧
      decode ((placed State.reset 0xFFE 0x6122).mem.read 0xFFE ++ (placed State.reset 0xFFE 0x6122).mem.read 0xFFF) =
        .instr (.ldImm 1 0x22) := by decide

theorem witness_StepRunsTheDecodedInstruction_unrecognized :
    State.reset.CanFetch ∧ decode (State.reset.mem.read 0x200 ++ State.reset.mem.read 0x201) = .unrecognized 0x0000 := by
  decide

theorem witness_StepRunsAPlacedWord : decode 0x1FFF = .instr (.jp 0xFFF) := by decide

theorem witness_UnrecognizedWordIsAReportedNoOp :
    (placed State.reset 0xFFE 0x5121).CanFetch ∧ decode (placed State.reset 0xFFE 0x5121).wordAtPc = .unrecognized 0x5121 := by
  decide

theorem witness_StepThatCannotFetchIsFatal_pc :
    { State.reset with pc := 0xFFF }.status = .running ∧ 0xFFE < { State.reset with pc := 0xFFF }.pc.toNat := by decide

theorem witness_StepThatCannotFetchIsFatal_key : { State.reset with status := .awaitKey 5 }.status = .awaitKey 5 := rfl

theorem witness_FatalIsAbsorbingUnderSteps :
    { State.reset with status := .fatal .stackUnderflow }.status = .fatal .stackUnderflow := rfl

/-- A return with an empty stack, while the timers run. -/
theorem witness_RaisedStepDiscardsEverything :
    ∃ t, { placed State.reset 0x200 0x00EE with DT := 3 }.NotFatal ∧
      step { placed State.reset 0x200 0x00EE with DT := 3 } = .next t ∧ t.status = .fatal .stackUnderflow :=
  ⟨{ placed State.reset 0x200 0x00EE with DT := 3 }.failed .stackUnderflow, nofun, rfl, rfl⟩

theorem witness_StatusChangesOnlyAsTheSpecSays_running : Runs (placed State.reset 0x200 0xF50A) (.instr (.ldVxK 5)) :=
  runs_of (by decide)

theorem witness_StatusChangesOnlyAsTheSpecSays_raised :
    ∃ t, step (placed State.reset 0x200 0x00EE) = .next t ∧ t.status = .fatal .stackUnderflow :=
  ⟨(placed State.reset 0x200 0x00EE).failed .stackUnderflow, rfl, rfl⟩

theorem witness_StatusChangesOnlyAsTheSpecSays_awaitKey :
    ∃ t, step { State.reset with status := .awaitKey 5 } = .next t :=
  ⟨{ State.reset with status := .awaitKey 5 }.failed .unresolvedInput, rfl⟩

theorem witness_StatusChangesOnlyAsTheSpecSays_fatal :
    ∃ t, step { State.reset with status := .fatal .outOfBounds } = .next t :=
  ⟨{ State.reset with status := .fatal .outOfBounds }.failed .outOfBounds, rfl⟩

/-- At the bounds of `pc` and of the stack entries. -/
theorem witness_StepKeepsTheInvariant : ∃ t, invState.Inv ∧ step invState = .next t :=
  ⟨invState.failed .outOfBounds, by decide, rfl⟩

/-- And a step that completes: a skip at the last word that can be fetched. -/
theorem witness_StepKeepsTheInvariant_completed :
    (placed invState 0xFFE 0x3000).Inv ∧ Runs (placed invState 0xFFE 0x3000) (.instr (.seImm 0 0)) :=
  ⟨by decide, runs_of (by decide)⟩

theorem witness_ResetLeavesTheValuesOfTheSpec (memInit : Nat → Byte) :
    invState.hostReset memInit ∈ [State.resetWith memInit, invState.hostReset memInit] ∧ 0xFFF < 0x1000 := by simp

theorem witness_TimersDecayInEveryCompletedStep :
    Runs { State.reset with DT := 1, ST := 255 } (.unrecognized 0x0000) := runs_of (by decide)

/-- Two completed steps, from DT = ST = 1. -/
theorem witness_TimersCountDownToZeroAndStay (P : Instr → Prop) :
    ∃ t, RunsAvoiding P 2 { State.reset with DT := 1, ST := 1 } t := by
  have h (s : State) (hc : s.CanFetch) (hd : decode s.wordAtPc = .unrecognized 0x0000) :
      step s = .next (s.advance.finish [.decodeMiss 0x0000]) := by
    rw [step_eq_runWord hc, State.runWord, hd]
    exact execUnrecognized_eq _ _
  have no (s : State) (hd : decode s.wordAtPc = .unrecognized 0x0000) (i : Instr) (hi : decode s.wordAtPc = .instr i) : ¬ P i := by
    rw [hd] at hi
    cases hi
  exact ⟨_, _, h _ (by decide) (by decide), completedStatus_notFatal rfl, no _ (by decide), _, h _ (by decide) (by decide),
    completedStatus_notFatal rfl, no _ (by decide), rfl⟩

/-! `PcAfterACompletedStep`: each clause, at the bound of its range. -/

theorem witness_PcAfterACompletedStep_jp : Runs (placed State.reset 0x200 0x1FFF) (.instr (.jp 0xFFF)) := runs_of (by decide)

theorem witness_PcAfterACompletedStep_call :
    Runs (placed (stacked (List.replicate 15 0x202)) 0xFFE 0x2ABC) (.instr (.call 0xABC)) ∧
      (15 : Fin 16).val = (placed (stacked (List.replicate 15 0x202)) 0xFFE 0x2ABC).depth.val :=
  ⟨runs_of (by decide), by decide⟩

theorem witness_PcAfterACompletedStep_jpV0 :
    Runs (placed (regs [(0, 0xFF)]) 0x200 0xBF00) (.instr (.jpV0 0xF00)) := runs_of (by decide)

theorem witness_PcAfterACompletedStep_ret :
    Runs (placed (stacked (List.replicate 16 0xFFF)) 0x200 0x00EE) (.instr .ret) ∧
      (15 : Fin 16).val + 1 = (placed (stacked (List.replicate 16 0xFFF)) 0x200 0x00EE).depth.val :=
  ⟨runs_of (by decide), by decide⟩

theorem witness_PcAfterACompletedStep_seImm :
    Runs (placed State.reset 0xFFE 0x3000) (.instr (.seImm 0 0)) ∧
      Runs (placed State.reset 0xFFE 0x3001) (.instr (.seImm 0 1)) := ⟨runs_of (by decide), runs_of (by decide)⟩

theorem witness_PcAfterACompletedStep_sneImm :
    Runs (placed State.reset 0xFFE 0x4001) (.instr (.sneImm 0 1)) ∧
      Runs (placed State.reset 0xFFE 0x4000) (.instr (.sneImm 0 0)) := ⟨runs_of (by decide), runs_of (by decide)⟩

theorem witness_PcAfterACompletedStep_seReg :
    Runs (placed (regs [(1, 7)]) 0xFFE 0x5110) (.instr (.seReg 1 1)) ∧
      Runs (placed (regs [(1, 7)]) 0xFFE 0x5120) (.instr (.seReg 1 2)) := ⟨runs_of (by decide), runs_of (by decide)⟩

theorem witness_PcAfterACompletedStep_sneReg :
    Runs (placed (regs [(1, 7)]) 0xFFE 0x9120) (.instr (.sneReg 1 2)) ∧
      Runs (placed (regs [(1, 7)]) 0xFFE 0x9110) (.instr (.sneReg 1 1)) := ⟨runs_of (by decide), runs_of (by decide)⟩

theorem witness_PcAfterACompletedStep_skp :
    Runs (placed (given State.reset 0 [0]) 0xFFE 0xE09E) (.instr (.skp 0)) ∧
      Runs (placed (given State.reset 0 []) 0xFFE 0xE09E) (.instr (.skp 0)) := ⟨runs_of (by decide), runs_of (by decide)⟩

theorem witness_PcAfterACompletedStep_sknp :
    Runs (placed (given State.reset 0 []) 0xFFE 0xE0A1) (.instr (.sknp 0)) ∧
      Runs (placed (given State.reset 0 [0]) 0xFFE 0xE0A1) (.instr (.sknp 0)) := ⟨runs_of (by decide), runs_of (by decide)⟩

theorem witness_PcAfterACompletedStep_other :
    Runs (placed State.reset 0xFFE 0x6122) (.instr (.ldImm 1 0x22)) ∧
      Runs (placed State.reset 0xFFE 0x0000) (.unrecognized 0x0000) := ⟨runs_of (by decide), runs_of (by decide)⟩

/-- One word that is none of LD_B, ST_REGS, LD_I, ADD_I, LD_F, CALL and RET serves the first three clauses. -/
theorem witness_StateElementsChangeOnlyByTheirInstructions :
    Runs (placed State.reset 0xFFE 0x6122) (.instr (.ldImm 1 0x22)) := runs_of (by decide)

theorem witness_StateElementsChangeOnlyByTheirInstructions_noFetch :
    ¬ { State.reset with pc := 0xFFF }.CanFetch ∧ ∃ t, step { State.reset with pc := 0xFFF } = .next t :=
  ⟨by decide, { State.reset with pc := 0xFFF }.failed .outOfBounds, rfl⟩

/-- LD_REGS with `x = 0xF` changes VF. -/
theorem witness_RegistersChangeOnlyByTheirInstructions :
    run { bytesAt 0xFFF [0x77] with I := 0xFF0 } 0xFF65 (fun t => (t.reg 0xF, t.status)) = some (0x77, .running) ∧
      State.reset.reg 0xF ≠ 0x77 := by decide

/-- The last free slot, and the last address a return may go to. -/
theorem witness_CallThenReturnComesBack :
    { stacked (List.replicate 15 0x202) with pc := 0xFFD }.depth.val < 16 ∧
      { stacked (List.replicate 15 0x202) with pc := 0xFFD }.pc.toNat + 2 ≤ 0xFFF := by decide

theorem witness_SeventeenthNestedCallOverflows :
    State.reset.depth.val = 0 ∧ (List.replicate 16 (0xABC : Addr12)).length = 16 ∧
      (stacked (List.replicate 16 0x202)).depth.val = 16 := by decide

theorem witness_StoredRegistersAreLoadedBack :
    { State.reset with I := 0xFF0 }.I.toNat + (0xF : Nibble).toNat ≤ 0xFFF := by decide

/-- At the last word of memory: `pc` 0xFFC, the store to 0xFFE and 0xFFF. -/
theorem witness_StoredInstructionIsRunByTheNextStep :
    let s := { placed (regs [(0, 0x6A), (1, 0x42)]) 0xFFC 0xF155 with I := 0xFFE }
    s.CanFetch ∧ decode s.wordAtPc = .instr (.stRegs 1) ∧ 1 ≤ (1 : Nibble).toNat ∧ s.I = s.pc + 2 ∧
      s.I.toNat + (1 : Nibble).toNat ≤ 0xFFF ∧ decode (s.reg 0 ++ s.reg 1) = .instr (.ldImm 0xA 0x42) := by decide

theorem witness_InputsMatterOnlyToThreeInstructions :
    Runs { placed State.reset 0x200 0xF50A with inputs := [⟨0xB7, [7]⟩] } (.instr (.ldVxK 5)) := runs_of (by decide)

theorem witness_InputsMatterOnlyToThreeInstructions_raised :
    decode { placed State.reset 0x200 0x00EE with inputs := [⟨0xB7, [7]⟩] }.wordAtPc = .instr .ret ∧
      ∃ t, step { placed State.reset 0x200 0x00EE with inputs := [⟨0xB7, [7]⟩] } = .next t ∧
        t.status = .fatal .stackUnderflow :=
  ⟨by decide, { placed State.reset 0x200 0x00EE with inputs := [⟨0xB7, [7]⟩] }.failed .stackUnderflow, rfl, rfl⟩

theorem witness_JumpToItselfIsAFixedPoint :
    (placed State.reset 0x200 0x1200).CanFetch ∧ decode (placed State.reset 0x200 0x1200).wordAtPc = .instr (.jp 0x200) ∧
      (0x200 : Addr12).toNat = (placed State.reset 0x200 0x1200).pc.toNat ∧ (placed State.reset 0x200 0x1200).DT = 0 ∧
      (placed State.reset 0x200 0x1200).ST = 0 := by decide

theorem witness_LoadCopiesTheImage : (List.replicate 3584 (0x11 : Byte)).length ≤ 3584 := by
  rw [List.length_replicate]

theorem witness_LoadOverflowChangesNothing :
    3584 < (List.replicate 3585 (0x11 : Byte)).length ∧ (List.replicate 3584 (0x11 : Byte)).length = 3584 := by
  rw [List.length_replicate, List.length_replicate]
  decide

theorem witness_SupplyKeyDeliversOnlyWhenAwaited :
    { State.reset with status := .awaitKey 0xF }.status = .awaitKey 0xF ∧ ∀ x, State.reset.status ≠ .awaitKey x :=
  ⟨rfl, nofun⟩

theorem witness_FatalIsLeftOnlyByReset :
    { State.reset with status := .fatal .outOfBounds }.status = .fatal .outOfBounds ∧
      ([.load [0x60], .step ⟨0, []⟩, .supplyKey 0xB, .snapshot] : List Transaction).all (fun x => decide (x ≠ .reset)) = true := by
  decide

/-- A full load, then a step, from the bounds of the invariant. -/
theorem witness_TransactionsKeepTheInvariant :
    ∃ t, invState.Inv ∧ invState.transactAll Config.memInitDefault [.load [0x60, 0x05], .step ⟨0, []⟩, .supplyKey 0xB] = .next t :=
  ⟨_, by decide, rfl⟩

theorem witness_KeyWaitHoldsUntilTheKeyIsDelivered :
    State.reset.status = .running ∧
      ∀ y ∈ ([.load [0x60], .snapshot] : List Transaction), (∃ bytes, y = .load bytes) ∨ y = .snapshot :=
  ⟨rfl, by simp⟩

theorem witness_BootedImageRunsFromItsFirstWord :
    (List.replicate 3582 (0x00 : Byte)).length + 2 ≤ 3584 ∧ decode ((0x60 : Byte) ++ (0x05 : Byte)) = .instr (.ldImm 0 5) := by
  rw [List.length_replicate]
  decide

/-- The last word of memory, and the last word of a full image. -/
theorem witness_FetchIsBigEndian :
    (placed State.reset 0xFFE 0x6122).CanFetch ∧
      (0x6122 : Word).toNat = ((placed State.reset 0xFFE 0x6122).mem.read 0xFFE).toNat * 256 +
        ((placed State.reset 0xFFE 0x6122).mem.read 0xFFF).toNat ∧
      decode 0x6122 = .instr (.ldImm 1 0x22) ∧ 2 * 1791 + 1 < (List.replicate 3584 (0x11 : Byte)).length ∧
      (List.replicate 3584 (0x11 : Byte)).length ≤ 3584 := by
  rw [List.length_replicate]
  decide

theorem witness_RandomIsMaskedByTheImmediate : (0x00 : Byte) = 0 := rfl

theorem witness_CallPushesTheNextAddress :
    { stacked (List.replicate 15 0x202) with pc := 0xFFE }.depth.val < 16 ∧
      { stacked (List.replicate 15 0x202) with pc := 0xFFE }.pc = 0xFFE ∧
      (15 : Fin 16).val = { stacked (List.replicate 15 0x202) with pc := 0xFFE }.depth.val ∧
      (stacked (List.replicate 16 0x202)).depth.val = 16 := by decide

theorem witness_ReturnPopsTheTopEntry :
    (0 : Fin 16).val + 1 = (stacked [0xFFF]).depth.val ∧ (stacked [0xFFF]).stack[(0 : Fin 16)].toNat ≤ 0xFFF ∧
      (15 : Fin 16).val + 1 = (stacked (List.replicate 16 0x1000)).depth.val ∧
      0xFFF < (stacked (List.replicate 16 0x1000)).stack[(15 : Fin 16)].toNat ∧ State.reset.depth.val = 0 := by decide

theorem witness_IndexedJumpAddsV0WithoutWrap :
    (0xF00 : Addr12).toNat + ((regs [(0, 0xFF)]).reg 0).toNat ≤ 0xFFF ∧
      0xFFF < (0xF01 : Addr12).toNat + ((regs [(0, 0xFF)]).reg 0).toNat := by decide

theorem witness_AddIndexIsFatalPastSixteenBits :
    { State.reset with I := 0xFFFF }.I.toNat + ({ State.reset with I := 0xFFFF }.reg 2).toNat ≤ 0xFFFF ∧
      0xFFFF < { regs [(2, 1)] with I := 0xFFFF }.I.toNat + ({ regs [(2, 1)] with I := 0xFFFF }.reg 2).toNat := by decide

theorem witness_DecimalDigitsAreStoredAtI :
    { State.reset with I := 0xFFD }.I.toNat ≤ 0xFFD ∧ 0xFFD < { State.reset with I := 0xFFE }.I.toNat := by decide

theorem witness_RegisterBlockIsStoredAtI :
    { State.reset with I := 0xFF0 }.I.toNat + (0xF : Nibble).toNat ≤ 0xFFF ∧
      0xFFF < { State.reset with I := 0xFF1 }.I.toNat + (0xF : Nibble).toNat := by decide

theorem witness_RegisterBlockIsLoadedFromI :
    { State.reset with I := 0xFFF }.I.toNat + (0 : Nibble).toNat ≤ 0xFFF ∧
      0xFFF < { State.reset with I := 0xFFF }.I.toNat + (1 : Nibble).toNat := by decide

theorem witness_DrawRequestCarriesTheSpriteBytes :
    ((0 : Nibble).toNat = 0 ∨ { State.reset with I := 0xFFFF }.I.toNat + (0 : Nibble).toNat - 1 ≤ 0xFFF) ∧
      ((1 : Nibble).toNat = 0 ∨ { State.reset with I := 0xFFF }.I.toNat + (1 : Nibble).toNat - 1 ≤ 0xFFF) ∧
      0 < (2 : Nibble).toNat ∧ 0xFFF < { State.reset with I := 0xFFF }.I.toNat + (2 : Nibble).toNat - 1 := by decide


end Sys2Proof.Tests
end

section
/-! PROOFS. The byte order of a word in memory (R41), what a loaded image reads back as (R91), and the statement about the
fetch that follows from the two. -/

namespace Sys2Proof.Machine

/-- The byte that stands first in a word is its high byte (R41). -/
theorem toNat_append_bytes (hi lo : Byte) : (hi ++ lo : Word).toNat = hi.toNat * 256 + lo.toNat := by
  rw [BitVec.toNat_append, ← Nat.shiftLeft_add_eq_or_of_lt lo.isLt, Nat.shiftLeft_eq]

theorem State.toNat_wordAtPc (s : State) :
    s.wordAtPc.toNat = (s.mem.read s.pc.toNat).toNat * 256 + (s.mem.read (s.pc.toNat + 1)).toNat :=
  toNat_append_bytes _ _

theorem State.runWord_instr {w : Word} {i : Instr} (s : State) (h : decode w = .instr i) : s.runWord w = exec i s := by
  simp only [State.runWord, h]

/-- An unrecognized word is run as itself: the decoder's variant carries it (R71). -/
theorem State.runWord_unrecognized {w u : Word} (s : State) (h : decode w = .unrecognized u) :
    s.runWord w = execUnrecognized w s := by
  obtain rfl := decode_unrecognized h
  simp only [State.runWord, h]

theorem imageFits_iff (image : List Byte) : imageFits image = true ↔ image.length ≤ 3584 :=
  decide_eq_true_iff

theorem State.loadImage_fits (s : State) {image : List Byte} (h : image.length ≤ 3584) :
    s.loadImage image = (.ok, s.setMem (s.mem.writeBlock 0x200 image)) :=
  if_pos ((imageFits_iff image).mpr h)

/-- Byte `j` of an image that fits is read back at `0x200 + j` (R91). -/
theorem State.read_loadImage (s : State) {image : List Byte} (hfit : image.length ≤ 3584) {j : Nat}
    (hj : j < image.length) : (s.loadImage image).2.mem.read (0x200 + j) = image[j] := by
  rw [s.loadImage_fits hfit]
  exact Memory.read_writeBlock_inside image s.mem 0x200 j hj

/-- The word that is fetched at an even offset of a loaded image has the image's bytes in order, high byte first. -/
theorem State.toNat_wordAtPc_loadImage (s : State) {image : List Byte} (hfit : image.length ≤ 3584) {k : Nat}
    (hk : 2 * k + 1 < image.length) :
    (({ (s.loadImage image).2 with pc := BitVec.ofNat 16 (0x200 + 2 * k) } : State).wordAtPc).toNat =
      (image[2 * k]).toNat * 256 + (image[2 * k + 1]).toNat := by
  have hpc : (BitVec.ofNat 16 (0x200 + 2 * k)).toNat = 0x200 + 2 * k :=
    Nat.mod_eq_of_lt (show 0x200 + 2 * k < 65536 by omega)
  rw [State.toNat_wordAtPc]
  simp only [hpc]
  rw [s.read_loadImage hfit (by omega), Nat.add_assoc, s.read_loadImage hfit hk]

end Sys2Proof.Machine

section
open Sys2Proof Sys2Proof.Machine

/-- Settles O60: a word is determined by its number, so `w` is the word at `pc`, which the step runs; a loaded image is
read back byte by byte. -/
theorem fetchIsBigEndian : Obligations.FetchIsBigEndian := by
  refine ⟨fun s w hfetch hw => ?_, fun s image k hk hfit => s.toNat_wordAtPc_loadImage hfit hk⟩
  have hword : w = s.wordAtPc := BitVec.eq_of_toNat_eq (hw.trans s.toNat_wordAtPc.symm)
  have hstep : step s = s.runWord w := hword ▸ step_eq_runWord hfetch
  exact ⟨fun i hi => hstep.trans (s.runWord_instr hi), fun u hu => hstep.trans (s.runWord_unrecognized hu)⟩

end
end

section
/-! PROOFS. The fields of a word as numbers and as shift and mask (R62), and the statements about the fields and about the
words the spec writes out. -/

namespace Sys2Proof

/-- The `len` bits of a word from bit `start` up, as a number (R62). -/
theorem toNat_bits (w : Word) (start len : Nat) :
    (w.extractLsb' start len).toNat = w.toNat / 2 ^ start % 2 ^ len := by
  rw [BitVec.extractLsb'_toNat, Nat.shiftRight_eq_div_pow]

/-- No bit of a word stands above its family, so the family is the quotient alone. -/
theorem toNat_family (w : Word) : (family w).toNat = w.toNat / 0x1000 := by
  have hlt : w.toNat / 0x1000 < 0x10 := by omega
  exact (toNat_bits w 12 4).trans (Nat.mod_eq_of_lt hlt)

theorem toNat_fieldX (w : Word) : (fieldX w).toNat = w.toNat / 0x100 % 0x10 := toNat_bits w 8 4

theorem toNat_fieldY (w : Word) : (fieldY w).toNat = w.toNat / 0x10 % 0x10 := toNat_bits w 4 4

/-- A field that starts at bit 0 is the remainder alone. -/
theorem toNat_lowBits (w : Word) (len : Nat) : (w.extractLsb' 0 len).toNat = w.toNat % 2 ^ len := by
  rw [toNat_bits, Nat.pow_zero, Nat.div_one]

theorem toNat_fieldKK (w : Word) : (fieldKK w).toNat = w.toNat % 0x100 := toNat_lowBits w 8

theorem toNat_fieldNNN (w : Word) : (fieldNNN w).toNat = w.toNat % 0x1000 := toNat_lowBits w 12

theorem toNat_fieldN (w : Word) : (fieldN w).toNat = w.toNat % 0x10 := toNat_lowBits w 4

/-- The second form R62 gives for a register index: shift the nibble down and mask it with 0xF. -/
theorem nibble_eq_shift_mask (w : Word) (start : Nat) :
    w.extractLsb' start 4 = ((w >>> start) &&& 0xF).setWidth 4 := by
  apply BitVec.eq_of_toNat_eq
  have hmask : w.toNat >>> start &&& 0xF = w.toNat >>> start % 2 ^ 4 := Nat.and_two_pow_sub_one_eq_mod _ 4
  rw [BitVec.extractLsb'_toNat, BitVec.toNat_setWidth, BitVec.toNat_and, BitVec.toNat_ushiftRight,
    show (0xF : Word).toNat = 0xF from rfl, hmask, Nat.mod_mod]

end Sys2Proof

section
open Sys2Proof Sys2Proof.Machine

/-- Settles O5, field by field. -/
theorem fieldsAreTheBitsTheSpecNames : Obligations.FieldsAreTheBitsTheSpecNames := fun w =>
  ⟨toNat_family w, toNat_fieldX w, nibble_eq_shift_mask w 8, toNat_fieldY w, nibble_eq_shift_mask w 4,
    toNat_fieldKK w, toNat_fieldNNN w, toNat_fieldN w⟩

/-- Settles O6: the words are closed terms, on which the decoder computes. -/
theorem decodeOfWordsTheSpecWritesOut : Obligations.DecodeOfWordsTheSpecWritesOut := by
  unfold Obligations.DecodeOfWordsTheSpecWritesOut
  decide

end
end

section
/-! PROOFS. What `load` does with an image that does not fit (R198), and the statement about the two sides of its bound. -/

namespace Sys2Proof.Machine

theorem State.loadImage_overflow (s : State) {image : List Byte} (h : 3584 < image.length) :
    s.loadImage image = (.loadOverflow, s) :=
  if_neg (mt (imageFits_iff image).mp (Nat.not_le.mpr h))

end Sys2Proof.Machine

section
open Sys2Proof Sys2Proof.Machine

/-- Settles O30: one byte past the bound the load is refused; at the bound the image fits and is read back byte by byte. -/
theorem loadOverflowChangesNothing : Obligations.LoadOverflowChangesNothing := by
  intro s image
  refine ⟨s.loadImage_overflow, fun hlen => ?_⟩
  have hfit : image.length ≤ 3584 := hlen.le
  exact ⟨congrArg Prod.fst (s.loadImage_fits hfit), fun k hk => s.read_loadImage hfit hk⟩

end
end

section
/-! PROOFS. The decoder against the encoder (R62 to R66): a word is the concatenation of its fields, each family has its
own rule, the word of an instruction decodes to it, and what a word decodes to stands for that word alone. -/

namespace Sys2Proof

/-! ## A word is the concatenation of its fields -/

section
variable {w : Word} {f n : Nibble} {k : Byte}

theorem layoutA_of_family (hf : family w = f) : f ++ fieldNNN w = w := by
  subst hf
  apply BitVec.eq_of_toNat_eq
  show (family w ++ fieldNNN w : BitVec (4 + 12)).toNat = _
  rw [BitVec.toNat_append, ← Nat.shiftLeft_add_eq_or_of_lt (fieldNNN w).isLt, Nat.shiftLeft_eq, toNat_family,
    toNat_fieldNNN]
  omega

theorem layoutX_of_fields (hf : family w = f) (hk : fieldKK w = k) : f ++ fieldX w ++ k = w := by
  subst hf hk
  apply BitVec.eq_of_toNat_eq
  show (family w ++ fieldX w ++ fieldKK w : BitVec (4 + 4 + 8)).toNat = _
  rw [BitVec.toNat_append, ← Nat.shiftLeft_add_eq_or_of_lt (fieldKK w).isLt, Nat.shiftLeft_eq, BitVec.toNat_append,
    ← Nat.shiftLeft_add_eq_or_of_lt (fieldX w).isLt, Nat.shiftLeft_eq, toNat_family, toNat_fieldX, toNat_fieldKK]
  omega

theorem layoutI_of_family (hf : family w = f) : f ++ fieldX w ++ fieldKK w = w := layoutX_of_fields hf rfl

/-- The low byte of a word is its two low nibbles. -/
theorem nibbles_eq_fieldKK (w : Word) : (fieldY w ++ fieldN w : Byte) = fieldKK w := by
  apply BitVec.eq_of_toNat_eq
  show (fieldY w ++ fieldN w : BitVec (4 + 4)).toNat = _
  rw [BitVec.toNat_append, ← Nat.shiftLeft_add_eq_or_of_lt (fieldN w).isLt, Nat.shiftLeft_eq, toNat_fieldY,
    toNat_fieldN, toNat_fieldKK]
  omega

theorem layoutR_of_fields (hf : family w = f) (hn : fieldN w = n) : f ++ fieldX w ++ fieldY w ++ n = w := by
  subst hn
  rw [layoutR_eq_layoutI, nibbles_eq_fieldKK]
  exact layoutI_of_family hf

/-! ## The rule of each family (R64) -/

theorem decode_family0 (h : family w = 0x0#4) : decode w = decodeFamily0 w := if_pos h
theorem decode_family1 (h : family w = 0x1#4) : decode w = .instr (.jp (fieldNNN w)) := by simp [decode, h]
theorem decode_family2 (h : family w = 0x2#4) : decode w = .instr (.call (fieldNNN w)) := by simp [decode, h]
theorem decode_family3 (h : family w = 0x3#4) : decode w = .instr (.seImm (fieldX w) (fieldKK w)) := by simp [decode, h]
theorem decode_family4 (h : family w = 0x4#4) : decode w = .instr (.sneImm (fieldX w) (fieldKK w)) := by simp [decode, h]
theorem decode_family5 (h : family w = 0x5#4) :
    decode w = if fieldN w = 0#4 then .instr (.seReg (fieldX w) (fieldY w)) else .unrecognized w := by simp [decode, h]
theorem decode_family6 (h : family w = 0x6#4) : decode w = .instr (.ldImm (fieldX w) (fieldKK w)) := by simp [decode, h]
theorem decode_family7 (h : family w = 0x7#4) : decode w = .instr (.addImm (fieldX w) (fieldKK w)) := by simp [decode, h]
theorem decode_family8 (h : family w = 0x8#4) : decode w = decodeFamily8 w := by simp [decode, h]
theorem decode_family9 (h : family w = 0x9#4) :
    decode w = if fieldN w = 0#4 then .instr (.sneReg (fieldX w) (fieldY w)) else .unrecognized w := by simp [decode, h]
theorem decode_familyA (h : family w = 0xA#4) : decode w = .instr (.ldI (fieldNNN w)) := by simp [decode, h]
theorem decode_familyB (h : family w = 0xB#4) : decode w = .instr (.jpV0 (fieldNNN w)) := by simp [decode, h]
theorem decode_familyC (h : family w = 0xC#4) : decode w = .instr (.rnd (fieldX w) (fieldKK w)) := by simp [decode, h]
theorem decode_familyD (h : family w = 0xD#4) : decode w = .instr (.drw (fieldX w) (fieldY w) (fieldN w)) := by
  simp [decode, h]
theorem decode_familyE (h : family w = 0xE#4) : decode w = decodeFamilyE w := by simp [decode, h]
theorem decode_familyF (h : family w = 0xF#4) : decode w = decodeFamilyF w := by simp [decode, h]

end

theorem family_cases (f : Nibble) :
    f = 0x0#4 ∨ f = 0x1#4 ∨ f = 0x2#4 ∨ f = 0x3#4 ∨ f = 0x4#4 ∨ f = 0x5#4 ∨ f = 0x6#4 ∨ f = 0x7#4 ∨ f = 0x8#4 ∨
      f = 0x9#4 ∨ f = 0xA#4 ∨ f = 0xB#4 ∨ f = 0xC#4 ∨ f = 0xD#4 ∨ f = 0xE#4 ∨ f = 0xF#4 := by
  revert f
  decide

/-! ## Decode after encode -/

/-- A word of layout R in family 0x8 is decoded by its low nibble, its registers read back. -/
theorem decode_layoutR8 (x y n : Nibble) : decode (0x8#4 ++ x ++ y ++ n) = decodeFamily8 (0x8#4 ++ x ++ y ++ n) :=
  decode_family8 (family_layoutR ..)

theorem decode_layoutXE (x : Nibble) (k : Byte) : decode (0xE#4 ++ x ++ k) = decodeFamilyE (0xE#4 ++ x ++ k) :=
  decode_familyE (family_layoutI ..)

theorem decode_layoutXF (x : Nibble) (k : Byte) : decode (0xF#4 ++ x ++ k) = decodeFamilyF (0xF#4 ++ x ++ k) :=
  decode_familyF (family_layoutI ..)

theorem decode_encode (i : Instr) : decode (encode i) = .instr i := by
  cases i with
  | cls => rfl
  | ret => rfl
  | jp nnn => rw [encode, decode_family1 (family_layoutA ..), fieldNNN_layoutA]
  | call nnn => rw [encode, decode_family2 (family_layoutA ..), fieldNNN_layoutA]
  | seImm x kk => rw [encode, decode_family3 (family_layoutI ..), fieldX_layoutI, fieldKK_layoutI]
  | sneImm x kk => rw [encode, decode_family4 (family_layoutI ..), fieldX_layoutI, fieldKK_layoutI]
  | seReg x y =>
    rw [encode, decode_family5 (family_layoutR ..), fieldN_layoutR, if_pos rfl, fieldX_layoutR, fieldY_layoutR]
  | ldImm x kk => rw [encode, decode_family6 (family_layoutI ..), fieldX_layoutI, fieldKK_layoutI]
  | addImm x kk => rw [encode, decode_family7 (family_layoutI ..), fieldX_layoutI, fieldKK_layoutI]
  | sneReg x y =>
    rw [encode, decode_family9 (family_layoutR ..), fieldN_layoutR, if_pos rfl, fieldX_layoutR, fieldY_layoutR]
  | ldI nnn => rw [encode, decode_familyA (family_layoutA ..), fieldNNN_layoutA]
  | jpV0 nnn => rw [encode, decode_familyB (family_layoutA ..), fieldNNN_layoutA]
  | rnd x kk => rw [encode, decode_familyC (family_layoutI ..), fieldX_layoutI, fieldKK_layoutI]
  | drw x y n => rw [encode, decode_familyD (family_layoutR ..), fieldX_layoutR, fieldY_layoutR, fieldN_layoutR]
  | ldReg x y | or x y | and x y | xor x y | addReg x y | sub x y | shr x y | subn x y | shl x y =>
    simp [encode, decode_layoutR8, decodeFamily8, fieldN_layoutR, fieldX_layoutR, fieldY_layoutR]
  | skp x | sknp x => simp [encode, decode_layoutXE, decodeFamilyE, fieldKK_layoutI, fieldX_layoutI]
  | ldVxDt x | ldVxK x | ldDtVx x | ldStVx x | addI x | ldF x | ldB x | stRegs x | ldRegs x =>
    simp [encode, decode_layoutXF, decodeFamilyF, fieldKK_layoutI, fieldX_layoutI]

/-! ## Encode after decode -/

/-- The word a decoded variant stands for: an instruction's encoding, or the unrecognized word it carries (R71). -/
def Decoded.word : Decoded → Word
  | .instr i => encode i
  | .unrecognized u => u

section
variable {w : Word}

theorem Decoded.word_ite {p : Prop} [Decidable p] {a b : Decoded} (ha : p → a.word = w) (hb : b.word = w) :
    (if p then a else b).word = w := by
  split
  · next h => exact ha h
  · exact hb

theorem word_decodeFamily0 : (decodeFamily0 w).word = w :=
  Decoded.word_ite (fun h => h.symm) <| Decoded.word_ite (fun h => h.symm) rfl

theorem word_decodeFamily8 (hf : family w = 0x8#4) : (decodeFamily8 w).word = w :=
  Decoded.word_ite (layoutR_of_fields hf) <| Decoded.word_ite (layoutR_of_fields hf) <|
  Decoded.word_ite (layoutR_of_fields hf) <| Decoded.word_ite (layoutR_of_fields hf) <|
  Decoded.word_ite (layoutR_of_fields hf) <| Decoded.word_ite (layoutR_of_fields hf) <|
  Decoded.word_ite (layoutR_of_fields hf) <| Decoded.word_ite (layoutR_of_fields hf) <|
  Decoded.word_ite (layoutR_of_fields hf) rfl

theorem word_decodeFamilyE (hf : family w = 0xE#4) : (decodeFamilyE w).word = w :=
  Decoded.word_ite (layoutX_of_fields hf) <| Decoded.word_ite (layoutX_of_fields hf) rfl

theorem word_decodeFamilyF (hf : family w = 0xF#4) : (decodeFamilyF w).word = w :=
  Decoded.word_ite (layoutX_of_fields hf) <| Decoded.word_ite (layoutX_of_fields hf) <|
  Decoded.word_ite (layoutX_of_fields hf) <| Decoded.word_ite (layoutX_of_fields hf) <|
  Decoded.word_ite (layoutX_of_fields hf) <| Decoded.word_ite (layoutX_of_fields hf) <|
  Decoded.word_ite (layoutX_of_fields hf) <| Decoded.word_ite (layoutX_of_fields hf) <|
  Decoded.word_ite (layoutX_of_fields hf) rfl

/-- Decoding loses nothing: every word is the one its decoded variant stands for. -/
theorem word_decode (w : Word) : (decode w).word = w := by
  obtain h | h | h | h | h | h | h | h | h | h | h | h | h | h | h | h := family_cases (family w)
  · rw [decode_family0 h]; exact word_decodeFamily0
  · rw [decode_family1 h]; exact layoutA_of_family h
  · rw [decode_family2 h]; exact layoutA_of_family h
  · rw [decode_family3 h]; exact layoutI_of_family h
  · rw [decode_family4 h]; exact layoutI_of_family h
  · rw [decode_family5 h]; exact Decoded.word_ite (layoutR_of_fields h) rfl
  · rw [decode_family6 h]; exact layoutI_of_family h
  · rw [decode_family7 h]; exact layoutI_of_family h
  · rw [decode_family8 h]; exact word_decodeFamily8 h
  · rw [decode_family9 h]; exact Decoded.word_ite (layoutR_of_fields h) rfl
  · rw [decode_familyA h]; exact layoutA_of_family h
  · rw [decode_familyB h]; exact layoutA_of_family h
  · rw [decode_familyC h]; exact layoutI_of_family h
  · rw [decode_familyD h]; exact layoutR_of_fields h rfl
  · rw [decode_familyE h]; exact word_decodeFamilyE h
  · rw [decode_familyF h]; exact word_decodeFamilyF h

theorem encode_of_decode {i : Instr} (h : decode w = .instr i) : encode i = w := by
  have hw := word_decode w
  rw [h] at hw
  exact hw

end

end Sys2Proof

section
open Sys2Proof Sys2Proof.Machine

/-- Settles O1, instruction by instruction. -/
theorem decodeOfEncodeGivesTheInstruction : Obligations.DecodeOfEncodeGivesTheInstruction := decode_encode

/-- Settles O2: what a word decodes to stands for that word. -/
theorem encodeOfDecodeGivesTheWord : Obligations.EncodeOfDecodeGivesTheWord := fun _ _ => encode_of_decode

end
end

section
/-! PROOFS. What a step can end in, said once (R81, R84 to R89, R192): the statements about every step are derived from it
and from the frame of the instruction, without looking at a meaning again. -/

namespace Sys2Proof.Machine

/-! ## Answers -/

theorem next_unique {o : Host.Outcome State Fault Refusal} {t u : State} (ht : o = .next t) (hu : o = .next u) : t = u :=
  Host.Outcome.next.inj (ht.symm.trans hu)

theorem exec_answers (i : Instr) (s : State) : ∃ t, exec i s = .next t := by
  obtain ⟨c, h, _⟩ | ⟨t, es, h, _⟩ := exec_frame i s
  · exact ⟨_, h⟩
  · exact ⟨_, h⟩

theorem State.runWord_answers (s : State) (w : Word) : ∃ t, s.runWord w = .next t := by
  cases h : decode w with
  | instr i => rw [s.runWord_instr h]; exact exec_answers i s
  | unrecognized u => rw [s.runWord_unrecognized h]; exact ⟨_, execUnrecognized_eq w s⟩

theorem step_answers (s : State) : ∃ t, step s = .next t := by
  obtain ⟨c, _, h⟩ | ⟨x, _, h⟩ | ⟨_, _, h⟩ | ⟨_, _, h⟩ := s.cycle_cases
  · exact ⟨_, h⟩
  · exact ⟨_, h⟩
  · exact ⟨_, h⟩
  · obtain ⟨t, ht⟩ := s.runWord_answers (s.mem.read s.pc.toNat ++ s.mem.read (s.pc.toNat + 1))
    exact ⟨t, h.trans ht⟩

/-! ## The six ways a step can end -/

/-- The states a step from `s` can end in, by the way it gets there. -/
inductive StepEnd (s : State) : State → Prop
  | repeated (c : Cause) (hs : s.status = .fatal c) : StepEnd s (s.repeatError c)
  | premature (x : Nibble) (hs : s.status = .awaitKey x) : StepEnd s (s.raise .unresolvedInput)
  | fetchBeyond (hs : s.status = .running) (hpc : 0xFFE < s.pc.toNat) : StepEnd s (s.raise .outOfBounds)
  | raised (i : Instr) (c : Cause) (hf : s.CanFetch) (hd : decode s.wordAtPc = .instr i)
      (he : exec i s = .next (s.raise c)) (hc : c ≠ .unresolvedInput) : StepEnd s (s.raise c)
  | completed (i : Instr) (t : State) (es : List Event) (hf : s.CanFetch) (hd : decode s.wordAtPc = .instr i)
      (he : exec i s = .next (t.finish es)) (hfr : Frame i s t) : StepEnd s (t.finish es)
  | missed (hf : s.CanFetch) (hd : decode s.wordAtPc = .unrecognized s.wordAtPc) :
      StepEnd s (s.advance.finish [.decodeMiss s.wordAtPc])

theorem step_instr {s : State} {i : Instr} (hf : s.CanFetch) (hd : decode s.wordAtPc = .instr i) : step s = exec i s :=
  (step_eq_runWord hf).trans (s.runWord_instr hd)

theorem step_unrecognized {s : State} {u : Word} (hf : s.CanFetch) (hd : decode s.wordAtPc = .unrecognized u) :
    step s = .next (s.advance.finish [.decodeMiss s.wordAtPc]) :=
  ((step_eq_runWord hf).trans (s.runWord_unrecognized hd)).trans (execUnrecognized_eq _ _)

theorem step_of_fatal {s : State} {c : Cause} (hs : s.status = .fatal c) : step s = .next (s.repeatError c) := by
  simp only [step, State.cycle, hs]

theorem step_of_awaitKey {s : State} {x : Nibble} (hs : s.status = .awaitKey x) :
    step s = .next (s.raise .unresolvedInput) := by
  simp only [step, State.cycle, hs]

theorem step_fetch_beyond {s : State} (hs : s.status = .running) (hpc : 0xFFE < s.pc.toNat) :
    step s = .next (s.raise .outOfBounds) := by
  simp only [step, State.cycle, hs, s.fetch_error (Nat.succ_lt_succ hpc)]

theorem step_end {s t : State} (h : step s = .next t) : StepEnd s t := by
  cases hs : s.status with
  | fatal c => exact next_unique (step_of_fatal hs) h ▸ .repeated c hs
  | awaitKey x => exact next_unique (step_of_awaitKey hs) h ▸ .premature x hs
  | running =>
    by_cases hpc : 0xFFE < s.pc.toNat
    · exact next_unique (step_fetch_beyond hs hpc) h ▸ .fetchBeyond hs hpc
    have hf : s.CanFetch := ⟨hs, by omega⟩
    cases hd : decode s.wordAtPc with
    | unrecognized u =>
      obtain rfl := decode_unrecognized hd
      exact next_unique (step_unrecognized hf hd) h ▸ .missed hf hd
    | instr i =>
      rw [step_instr hf hd] at h
      obtain ⟨c, he, hc⟩ | ⟨t', es, he, hfr⟩ := exec_frame i s
      · exact next_unique he h ▸ .raised i c hf hd he hc
      · exact next_unique he h ▸ .completed i t' es hf hd he hfr

/-- A phase 5 that completes leaves a status that is fatal only where it was before. -/
theorem Frame.notFatal {i : Instr} {s t : State} (h : Frame i s t) (hs : s.status = .running) : t.NotFatal := by
  intro c hc
  obtain ⟨hst, _⟩ | ⟨x, _, hst⟩ := h.status
  · rw [hst, hs] at hc; cases hc
  · rw [hst] at hc; cases hc

end Sys2Proof.Machine

section
open Sys2Proof Sys2Proof.Machine

/-- Settles O7: the word at pc is the one that is run. -/
theorem stepRunsTheDecodedInstruction : Obligations.StepRunsTheDecodedInstruction := by
  intro s hf
  have hstep : step s = s.runWord s.wordAtPc := step_eq_runWord hf
  refine ⟨fun i hi => hstep.trans (s.runWord_instr hi), fun w hw => ?_⟩
  obtain rfl := decode_unrecognized hw
  exact hstep.trans (s.runWord_unrecognized hw)

/-- Settles O10: the two ways a step ends before it has a word. -/
theorem stepThatCannotFetchIsFatal : Obligations.StepThatCannotFetchIsFatal :=
  fun _ => ⟨step_fetch_beyond, fun _ => step_of_awaitKey⟩

/-- Settles O11: a step in Fatal repeats the error, and so does every one after it. -/
theorem fatalIsAbsorbingUnderSteps : Obligations.FatalIsAbsorbingUnderSteps := by
  intro s c n
  induction n generalizing s with
  | zero => intro hs; exact (run_next 0 (step_of_fatal hs)).trans (run_zero _)
  | succ n ih => intro hs; exact (run_next (n + 1) (step_of_fatal hs)).trans (ih (s.repeatError c) hs)

/-- Settles O12: of the ends of a step, a fatal one from a state that was not fatal is a raise. -/
theorem raisedStepDiscardsEverything : Obligations.RaisedStepDiscardsEverything := by
  intro s t c hs hstep hc
  cases step_end hstep with
  | repeated c' hs' => exact absurd hs' (hs c')
  | premature => cases hc; rfl
  | fetchBeyond => cases hc; rfl
  | raised => cases hc; rfl
  | completed i t es hf hd he hfr => exact absurd hc (hfr.notFatal hf.1 c)
  | missed hf => exact absurd hc (hs c)

/-- Settles O13, end by end. -/
theorem statusChangesOnlyAsTheSpecSays : Obligations.StatusChangesOnlyAsTheSpecSays := by
  intro s t hstep
  cases step_end hstep with
  | repeated c hs => simp [hs]
  | premature x hs => simp [hs]
  | fetchBeyond hs => simp [hs]
  | raised i c hf hd he hc => simp [hf.1, hc]
  | missed hf => simp [hf.1]
  | completed i t es hf hd he hfr =>
    obtain ⟨hst, _⟩ | ⟨x, rfl, hst⟩ := hfr.status
    · simp [hf.1, hst]
    · simp [hf.1, hst, hd]

/-- Settles O17. -/
theorem everyStepAnswersANextState : Obligations.EveryStepAnswersANextState :=
  fun s => ⟨fun i => exec_answers i s, step_answers s⟩

end
end

section
/-! PROOFS. Where a completed instruction leaves `pc` and the stack (R87, R100 to R108), and the invariant of R28 that
follows: every step keeps it. -/

namespace Sys2Proof.Machine

/-! ## Calls -/

/-- The state a call leaves where a slot is free. -/
def State.afterCall (s : State) (nnn : Addr12) (hd : s.depth.val < 16) : State :=
  (({ s.advance with stack := s.stack.set s.depth.val (s.pc + 2) hd, depth := ⟨s.depth.val + 1, by omega⟩ } : State).setPc
    (zextAddr nnn)).finish []

theorem exec_call_afterCall (s : State) (nnn : Addr12) (hd : s.depth.val < 16) :
    exec (.call nnn) s = .next (s.afterCall nnn hd) := exec_call_ok s nnn hd

theorem State.afterCall_depth (s : State) (nnn : Addr12) (hd : s.depth.val < 16) :
    (s.afterCall nnn hd).depth.val = s.depth.val + 1 := rfl

theorem State.afterCall_slot (s : State) (nnn : Addr12) (hd : s.depth.val < 16) (k : Fin 16) :
    (s.afterCall nnn hd).stack[k] = if k.val = s.depth.val then s.pc + 2 else s.stack[k] :=
  (Vector.getElem_set hd k.isLt).trans (if_congr eq_comm rfl rfl)

/-! ## The instructions that test before they write: what a completed one has passed -/

section
variable {s t : State} {nnn : Addr12}

theorem NotFatal.not_raised {i : Instr} {c : Cause} (ht : t.NotFatal) (h : exec i s = .next t) :
    exec i s ≠ .next (s.raise c) := by
  intro hr
  obtain rfl := next_unique hr h
  exact ht c rfl

theorem ret_completed (h : exec .ret s = .next t) (ht : t.NotFatal) :
    s.depth.val ≠ 0 ∧ s.top.toNat ≤ 0xFFF ∧ t.pc = s.top ∧ t.depth.val = s.depth.val - 1 ∧ t.stack = s.stack := by
  by_cases hd : s.depth.val = 0
  · exact absurd (exec_ret_empty s hd) (NotFatal.not_raised ht h)
  by_cases hb : s.top.toNat ≤ 0xFFF
  · obtain rfl := next_unique (exec_ret_ok s hd hb) h
    exact ⟨hd, hb, rfl, rfl, rfl⟩
  · exact absurd (exec_ret_beyond s hd (Nat.lt_of_not_le hb)) (NotFatal.not_raised ht h)

theorem call_completed (h : exec (.call nnn) s = .next t) (ht : t.NotFatal) :
    ∃ hd : s.depth.val < 16, t.pc = zextAddr nnn ∧ t.depth.val = s.depth.val + 1 ∧
      t.stack = s.stack.set s.depth.val (s.pc + 2) hd := by
  by_cases hd : s.depth.val < 16
  · obtain rfl := next_unique (exec_call_afterCall s nnn hd) h
    exact ⟨hd, rfl, rfl, rfl⟩
  · exact absurd (exec_call_full s nnn (by omega)) (NotFatal.not_raised ht h)

theorem jpV0_completed (h : exec (.jpV0 nnn) s = .next t) (ht : t.NotFatal) :
    nnn.toNat + (s.reg 0).toNat ≤ 0xFFF ∧ t.pc = BitVec.ofNat 16 (nnn.toNat + (s.reg 0).toNat) := by
  by_cases hb : nnn.toNat + (s.reg 0).toNat ≤ 0xFFF
  · obtain rfl := next_unique (exec_jpV0_ok s nnn hb) h
    exact ⟨hb, rfl⟩
  · exact absurd (exec_jpV0_beyond s nnn (Nat.lt_of_not_le hb)) (NotFatal.not_raised ht h)

end

/-! ## The skips (R87) -/

/-- Where a skip instruction leaves `pc`. -/
def State.skipTarget (s : State) (cond : Bool) : Word := if cond then s.pc + 4 else s.pc + 2

theorem State.skipIf_advance (s : State) (cond : Bool) :
    s.advance.skipIf cond = .ok (s.advance.setPc (s.skipTarget cond), []) := by
  cases cond
  · rfl
  · exact congrArg (fun pc => (s.advance.setPc pc).done) (BitVec.add_assoc s.pc 2 2)

theorem State.execute_skipIf (s : State) (cond : State → Bool) :
    s.execute (fun t => t.skipIf (cond t)) =
      .next ((s.advance.setPc (s.skipTarget (cond s.advance))).finish []) :=
  State.execute_ok (s.skipIf_advance _)

section
variable (s : State) (x y : Nibble) (kk : Byte)

theorem exec_seImm : exec (.seImm x kk) s = .next ((s.advance.setPc (s.skipTarget (s.reg x == kk))).finish []) :=
  s.execute_skipIf fun t => t.reg x == kk

theorem exec_sneImm : exec (.sneImm x kk) s = .next ((s.advance.setPc (s.skipTarget (s.reg x != kk))).finish []) :=
  s.execute_skipIf fun t => t.reg x != kk

theorem exec_seReg : exec (.seReg x y) s = .next ((s.advance.setPc (s.skipTarget (s.reg x == s.reg y))).finish []) :=
  s.execute_skipIf fun t => t.reg x == t.reg y

theorem exec_sneReg : exec (.sneReg x y) s = .next ((s.advance.setPc (s.skipTarget (s.reg x != s.reg y))).finish []) :=
  s.execute_skipIf fun t => t.reg x != t.reg y

theorem exec_skp :
    exec (.skp x) s = .next ((s.advance.setPc (s.skipTarget (s.keyPressed (s.reg x)))).finish []) :=
  s.execute_skipIf fun t => t.keyPressed (t.reg x)

theorem exec_sknp :
    exec (.sknp x) s = .next ((s.advance.setPc (s.skipTarget (!s.keyPressed (s.reg x)))).finish []) :=
  s.execute_skipIf fun t => !t.keyPressed (t.reg x)

end

/-! ## The target of every instruction -/

/-- Where a completed instruction leaves `pc`. -/
def State.pcAfter (s : State) : Instr → Word
  | .jp nnn | .call nnn => zextAddr nnn
  | .jpV0 nnn => BitVec.ofNat 16 (nnn.toNat + (s.reg 0).toNat)
  | .ret => s.top
  | .seImm x kk => s.skipTarget (s.reg x == kk)
  | .sneImm x kk => s.skipTarget (s.reg x != kk)
  | .seReg x y => s.skipTarget (s.reg x == s.reg y)
  | .sneReg x y => s.skipTarget (s.reg x != s.reg y)
  | .skp x => s.skipTarget (s.keyPressed (s.reg x))
  | .sknp x => s.skipTarget (!s.keyPressed (s.reg x))
  | _ => s.pc + 2

theorem exec_pc {i : Instr} {s t : State} (h : exec i s = .next t) (ht : t.NotFatal) : t.pc = s.pcAfter i := by
  have pc_of {u : State} {pc : Word} (hu : exec i s = .next u) (hpc : u.pc = pc) : t.pc = pc :=
    next_unique hu h ▸ hpc
  have no {c : Cause} : exec i s ≠ .next (s.raise c) := NotFatal.not_raised ht h
  cases i with
  | jp => exact pc_of rfl rfl
  | call nnn => exact (call_completed h ht).2.1
  | jpV0 nnn => exact (jpV0_completed h ht).2
  | ret => exact (ret_completed h ht).2.2.1
  | seImm x kk => exact pc_of (exec_seImm s x kk) rfl
  | sneImm x kk => exact pc_of (exec_sneImm s x kk) rfl
  | seReg x y => exact pc_of (exec_seReg s x y) rfl
  | sneReg x y => exact pc_of (exec_sneReg s x y) rfl
  | skp x => exact pc_of (exec_skp s x) rfl
  | sknp x => exact pc_of (exec_sknp s x) rfl
  | addI x =>
    by_cases hb : s.I.toNat + (s.reg x).toNat ≤ 0xFFFF
    · exact pc_of (exec_addI_ok s x hb) rfl
    · exact absurd (exec_addI_beyond s x (by omega)) no
  | ldB x =>
    by_cases hb : s.I.toNat ≤ 0xFFD
    · exact pc_of (exec_ldB_ok s x hb) rfl
    · exact absurd (exec_ldB_beyond s x (by omega)) no
  | stRegs x =>
    by_cases hb : s.I.toNat + x.toNat ≤ 0xFFF
    · exact pc_of (exec_stRegs_ok s x hb) rfl
    · exact absurd (exec_stRegs_beyond s x (by omega)) no
  | ldRegs x =>
    by_cases hb : s.I.toNat + x.toNat ≤ 0xFFF
    · exact pc_of (exec_ldRegs_ok s x hb) rfl
    · exact absurd (exec_ldRegs_beyond s x (by omega)) no
  | drw x y n =>
    by_cases hb : n.toNat = 0 ∨ s.I.toNat + n.toNat ≤ 0x1000
    · exact pc_of (exec_drw_ok s x y n hb) rfl
    · exact absurd (exec_drw_beyond s x y n (by omega) (by omega)) no
  | cls | ldImm | addImm | ldReg | or | and | xor | addReg | sub | shr | subn | shl | ldI | rnd | ldVxDt | ldVxK | ldDtVx
  | ldStVx | ldF => exact pc_of rfl rfl

/-! ## `pc` as a number -/

section
variable {s : State}

theorem toNat_zextAddr (nnn : Addr12) : (zextAddr nnn).toNat = nnn.toNat := by
  rw [zextAddr, BitVec.toNat_setWidth]
  exact Nat.mod_eq_of_lt (Nat.lt_trans nnn.isLt (by decide))

theorem toNat_pc_add (hpc : s.pc.toNat + 1 ≤ 0xFFF) {k : Nat} (hk : k ≤ 4) :
    (s.pc + BitVec.ofNat 16 k).toNat = s.pc.toNat + k := by
  rw [BitVec.toNat_add, BitVec.toNat_ofNat]
  omega

theorem toNat_pc_next (hpc : s.pc.toNat + 1 ≤ 0xFFF) : (s.pc + 2).toNat = s.pc.toNat + 2 :=
  toNat_pc_add hpc (k := 2) (by decide)

theorem toNat_skipTarget (hpc : s.pc.toNat + 1 ≤ 0xFFF) (cond : Bool) :
    (s.skipTarget cond).toNat = s.pc.toNat + if cond then 4 else 2 := by
  cases cond
  · exact toNat_pc_next hpc
  · exact toNat_pc_add hpc (k := 4) (by decide)

theorem toNat_skipTarget_beq (hpc : s.pc.toNat + 1 ≤ 0xFFF) (a b : Byte) :
    (s.skipTarget (a == b)).toNat = s.pc.toNat + if a = b then 4 else 2 := by
  simp only [toNat_skipTarget hpc, beq_iff_eq]

theorem toNat_skipTarget_bne (hpc : s.pc.toNat + 1 ≤ 0xFFF) (a b : Byte) :
    (s.skipTarget (a != b)).toNat = s.pc.toNat + if a ≠ b then 4 else 2 := by
  simp only [toNat_skipTarget hpc, bne_iff_ne]

theorem toNat_skipTarget_not (hpc : s.pc.toNat + 1 ≤ 0xFFF) (cond : Bool) :
    (s.skipTarget (!cond)).toNat = s.pc.toNat + if cond then 2 else 4 := by
  cases cond <;> exact toNat_skipTarget hpc _

theorem toNat_jpV0_target {nnn : Addr12} (h : nnn.toNat + (s.reg 0).toNat ≤ 0xFFF) :
    (BitVec.ofNat 16 (nnn.toNat + (s.reg 0).toNat)).toNat = nnn.toNat + (s.reg 0).toNat :=
  Nat.mod_eq_of_lt (show _ < 65536 by omega)

end

/-- The bound of R14 on `pc` after an instruction that completes where the step could fetch. -/
theorem exec_pc_le {i : Instr} {s t : State} (hpc : s.pc.toNat + 1 ≤ 0xFFF) (h : exec i s = .next t) (ht : t.NotFatal) :
    t.pc.toNat ≤ 0x1002 := by
  have hskip (cond : Bool) : (s.skipTarget cond).toNat ≤ 0x1002 := by
    rw [toNat_skipTarget hpc]
    split <;> omega
  have hnext : (s.pc + 2).toNat ≤ 0x1002 := hskip false
  have haddr (nnn : Addr12) : (zextAddr nnn).toNat ≤ 0x1002 := by
    have := nnn.isLt
    rw [toNat_zextAddr]
    omega
  rw [exec_pc h ht]
  cases i with
  | ret => exact Nat.le_trans (ret_completed h ht).2.1 (by decide)
  | jpV0 nnn =>
    have hb := (jpV0_completed h ht).1
    exact (toNat_jpV0_target hb).trans_le (Nat.le_trans hb (by decide))
  | jp | call => exact haddr _
  | seImm | sneImm | seReg | sneReg | skp | sknp => exact hskip _
  | _ => exact hnext

/-! ## The invariant -/

/-- The stack part of R28: every valid entry lies in 0x002..0x1000. -/
def State.StackInv (s : State) : Prop :=
  ∀ k : Fin 16, k.val < s.depth.val → 0x002 ≤ s.stack[k].toNat ∧ s.stack[k].toNat ≤ 0x1000

theorem exec_keeps_stackInv {i : Instr} {s t : State} {es : List Event} (hpc : s.pc.toNat + 1 ≤ 0xFFF) (hs : s.StackInv)
    (h : exec i s = .next (t.finish es)) (hfr : Frame i s t) (ht : t.NotFatal) :
    (t.finish es).StackInv := by
  obtain ⟨hd, hst⟩ | rfl | ⟨nnn, rfl⟩ := hfr.stack
  · intro k hk
    simp only [State.finish_stack, hst]
    exact hs k (hd ▸ hk)
  · obtain ⟨_, _, _, hd, hst⟩ := ret_completed h ht
    intro k hk
    simp only [hst]
    exact hs k (by omega)
  · obtain ⟨hlt, _, hd, hst⟩ := call_completed h ht
    intro k hk
    simp only [hst, Fin.getElem_fin, Vector.getElem_set]
    split
    · have := toNat_pc_next hpc
      exact ⟨by omega, by omega⟩
    · exact hs k (by omega)

theorem step_keeps_inv {s t : State} (hs : s.Inv) (h : step s = .next t) : t.Inv := by
  obtain ⟨hm, hp, hst⟩ := hs
  cases step_end h with
  | repeated => exact ⟨hm, hp, hst⟩
  | premature => exact ⟨hm, hp, hst⟩
  | fetchBeyond => exact ⟨hm, hp, hst⟩
  | raised => exact ⟨hm, hp, hst⟩
  | missed hf =>
    have := toNat_pc_next hf.2
    exact ⟨hm, show (s.pc + 2).toNat ≤ 0x1002 by omega, hst⟩
  | completed i t es hf hd he hfr =>
    have ht := hfr.notFatal hf.1
    exact ⟨hfr.canonical hm, exec_pc_le hf.2 he ht, exec_keeps_stackInv hf.2 hst he hfr ht⟩

theorem resetWith_inv (memInit : Nat → Byte) : (State.resetWith memInit).Inv :=
  ⟨Memory.initial_wf memInit, show 0x200 ≤ 0x1002 by decide, fun k hk => absurd hk (Nat.not_lt_zero k.val)⟩

end Sys2Proof.Machine

section
open Sys2Proof Sys2Proof.Machine

/-- Settles O14: memory by the frame, `pc` by the target of each instruction, the stack by the two instructions that
move it. -/
theorem stepKeepsTheInvariant : Obligations.StepKeepsTheInvariant := fun _ _ => step_keeps_inv

/-- Settles O15. -/
theorem resetMeetsTheInvariant : Obligations.ResetMeetsTheInvariant :=
  ⟨State.resetWith_default ▸ resetWith_inv Config.memInitDefault, resetWith_inv⟩

/-- Settles O20: the target of each instruction, read as a number. -/
theorem pcAfterACompletedStep : Obligations.PcAfterACompletedStep := by
  intro s t hf hstep ht
  have hnext : (s.pc + 2).toNat = s.pc.toNat + 2 := toNat_pc_next hf.2
  cases hd : decode s.wordAtPc with
  | unrecognized u => exact next_unique (step_unrecognized hf hd) hstep ▸ hnext
  | instr i =>
    have he : exec i s = .next t := step_instr hf hd ▸ hstep
    have hpc : t.pc = s.pcAfter i := exec_pc he ht
    cases i with
    | jp nnn => exact hpc ▸ toNat_zextAddr nnn
    | call nnn =>
      obtain ⟨hlt, _, _, hst⟩ := call_completed he ht
      refine ⟨hpc ▸ toNat_zextAddr nnn, fun k hk => ?_⟩
      simp [hst, hk]
    | jpV0 nnn => exact hpc ▸ toNat_jpV0_target (jpV0_completed he ht).1
    | ret => exact fun k hk => hpc.trans (s.top_eq k hk)
    | seImm x kk => exact hpc ▸ toNat_skipTarget_beq hf.2 (s.reg x) kk
    | sneImm x kk => exact hpc ▸ toNat_skipTarget_bne hf.2 (s.reg x) kk
    | seReg x y => exact hpc ▸ toNat_skipTarget_beq hf.2 (s.reg x) (s.reg y)
    | sneReg x y => exact hpc ▸ toNat_skipTarget_bne hf.2 (s.reg x) (s.reg y)
    | skp x => exact hpc ▸ toNat_skipTarget hf.2 (s.keyPressed (s.reg x))
    | sknp x => exact hpc ▸ toNat_skipTarget_not hf.2 (s.keyPressed (s.reg x))
    | _ => exact hpc ▸ hnext

end
end

section
/-! PROOFS. The host's transactions between steps (R90 to R94): what each does, an induction over any sequence of them, and
the statements about sequences. -/

namespace Sys2Proof.Machine

/-! ## One transaction -/

/-- A step with its input given is a step of the machine with that one input pending, the pending ones put back (R92). -/
theorem State.stepWith_eq {s t : State} {input : StepInput} (h : step { s with inputs := [input] } = .next t) :
    s.stepWith input = .next { t with inputs := s.inputs } := by
  simp only [State.stepWith, h]

theorem State.transact_step {s t : State} {input : StepInput} (memInit : Nat → Byte)
    (h : step { s with inputs := [input] } = .next t) :
    s.transact memInit (.step input) =
      .next ({ t with inputs := s.inputs }, .stepped t.result) := by
  simp only [State.transact, State.stepWith_eq h]

theorem State.loadImage_memory (s : State) (image : List Byte) : ∃ m, (s.loadImage image).2 = s.setMem m := by
  by_cases h : image.length ≤ 3584
  · exact ⟨_, congrArg Prod.snd (s.loadImage_fits h)⟩
  · exact ⟨s.mem, congrArg Prod.snd (s.loadImage_overflow (Nat.lt_of_not_le h))⟩

theorem State.loadImage_wf {s : State} (hm : s.mem.wf = true) (image : List Byte) :
    (s.loadImage image).2.mem.wf = true := by
  by_cases h : image.length ≤ 3584
  · rw [s.loadImage_fits h]
    exact Memory.writeBlock_wf image hm (by omega)
  · rw [s.loadImage_overflow (Nat.lt_of_not_le h)]
    exact hm

theorem State.supplyKey_awaited {s : State} {x : Nibble} (hs : s.status = .awaitKey x) (K : Byte) :
    s.supplyKey K = (s.setReg x K).setStatus .running := by
  simp only [State.supplyKey, hs]

theorem State.supplyKey_ignored {s : State} (hs : ∀ x, s.status ≠ .awaitKey x) (K : Byte) : s.supplyKey K = s := by
  unfold State.supplyKey
  split
  · next x hx => exact absurd hx (hs x)
  · rfl
  · rfl

/-! ## Any sequence of transactions -/

/-- What every transaction of a kind answers with and keeps holds after any sequence of them. -/
theorem State.transactAll_keeps {memInit : Nat → Byte} {P : State → Prop} {A : Transaction → Prop}
    (hstep : ∀ (s : State) (x : Transaction), A x → P s → ∃ t r, s.transact memInit x = .next (t, r) ∧ P t)
    (txs : List Transaction) : ∀ s : State, (∀ x ∈ txs, A x) → P s → ∃ t, s.transactAll memInit txs = .next t ∧ P t := by
  induction txs with
  | nil => exact fun s _ hs => ⟨s, rfl, hs⟩
  | cons x txs ih =>
    intro s hA hs
    obtain ⟨t, r, ht, hPt⟩ := hstep s x (hA x List.mem_cons_self) hs
    obtain ⟨u, hu, hPu⟩ := ih t (fun y hy => hA y (List.mem_cons_of_mem x hy)) hPt
    exact ⟨u, by simp only [State.transactAll, ht, hu], hPu⟩

/-! ## The invariant -/

theorem State.transact_keeps_inv (memInit : Nat → Byte) (s : State) (x : Transaction) (hs : s.Inv) :
    ∃ t r, s.transact memInit x = .next (t, r) ∧ t.Inv := by
  obtain ⟨hm, hp, hst⟩ := hs
  cases x with
  | reset => exact ⟨_, _, rfl, resetWith_inv memInit⟩
  | load image =>
    obtain ⟨m, hload⟩ := s.loadImage_memory image
    exact ⟨_, _, rfl, State.loadImage_wf hm image, hload ▸ hp, hload ▸ hst⟩
  | step input =>
    obtain ⟨t, ht⟩ := step_answers { s with inputs := [input] }
    have ht' : t.Inv := step_keeps_inv (s := { s with inputs := [input] }) ⟨hm, hp, hst⟩ ht
    exact ⟨_, _, State.transact_step memInit ht, ht'⟩
  | supplyKey K =>
    refine ⟨_, _, rfl, ?_⟩
    cases hs : s.status with
    | awaitKey x => rw [State.supplyKey_awaited hs]; exact ⟨hm, hp, hst⟩
    | running => rw [State.supplyKey_ignored (by simp [hs])]; exact ⟨hm, hp, hst⟩
    | fatal c => rw [State.supplyKey_ignored (by simp [hs])]; exact ⟨hm, hp, hst⟩
  | snapshot => exact ⟨_, _, rfl, hm, hp, hst⟩

/-! ## Loads and snapshots, and the key wait (R175, R93) -/

/-- A load or a snapshot changes nothing but memory. -/
theorem State.transact_load_or_snapshot (memInit : Nat → Byte) (s : State) {x : Transaction}
    (hx : (∃ image, x = .load image) ∨ x = .snapshot) : ∃ m r, s.transact memInit x = .next (s.setMem m, r) := by
  obtain ⟨image, rfl⟩ | rfl := hx
  · obtain ⟨m, hload⟩ := s.loadImage_memory image
    exact ⟨m, _, by rw [← hload]; rfl⟩
  · exact ⟨s.mem, _, rfl⟩

theorem State.transactAll_load_or_snapshot (memInit : Nat → Byte) (s : State) (txs : List Transaction)
    (htxs : ∀ x ∈ txs, (∃ image, x = .load image) ∨ x = .snapshot) :
    ∃ m, s.transactAll memInit txs = .next (s.setMem m) := by
  obtain ⟨t, ht, m, rfl⟩ := State.transactAll_keeps (memInit := memInit) (P := fun t => ∃ m, t = s.setMem m)
    (fun t x hx hP => by
      obtain ⟨m, rfl⟩ := hP
      obtain ⟨m', r, hm'⟩ := (s.setMem m).transact_load_or_snapshot memInit hx
      exact ⟨_, r, hm', m', rfl⟩) txs s htxs ⟨s.mem, rfl⟩
  exact ⟨m, ht⟩

/-- The state a key wait leaves (R175). -/
theorem exec_ldVxK (x : Nibble) (s : State) :
    exec (.ldVxK x) s = .next ((s.advance.setStatus (.awaitKey x)).finish []) := rfl

/-! ## Fatal (R203, R204) -/

/-- In `Fatal(c)` no transaction but reset changes anything besides memory and the returned value. -/
theorem State.transact_of_fatal (memInit : Nat → Byte) {s : State} {c : Cause} (hs : s.status = .fatal c)
    {x : Transaction} (hx : x ≠ .reset) :
    ∃ m r reply, s.transact memInit x = .next ({ s with mem := m, result := r }, reply) := by
  cases x with
  | reset => exact absurd rfl hx
  | load image =>
    obtain ⟨m, reply, h⟩ := s.transact_load_or_snapshot memInit (.inl ⟨image, rfl⟩)
    exact ⟨m, s.result, reply, h⟩
  | step input =>
    have hstep := step_of_fatal (s := { s with inputs := [input] }) hs
    exact ⟨s.mem, some (.error c), _, State.transact_step memInit hstep⟩
  | supplyKey K =>
    have hkey : s.supplyKey K = s := State.supplyKey_ignored (by simp [hs]) K
    exact ⟨s.mem, s.result, .done, by rw [State.transact, hkey]⟩
  | snapshot => exact ⟨s.mem, s.result, _, rfl⟩

theorem State.transactAll_of_fatal (memInit : Nat → Byte) {s : State} {c : Cause} (hs : s.status = .fatal c)
    (txs : List Transaction) (htxs : ∀ x ∈ txs, x ≠ .reset) :
    ∃ m r, s.transactAll memInit txs = .next { s with mem := m, result := r } := by
  obtain ⟨t, ht, m, r, rfl⟩ := State.transactAll_keeps (memInit := memInit)
    (P := fun t => ∃ m r, t = { s with mem := m, result := r })
    (fun t x hx hP => by
      obtain ⟨m, r, rfl⟩ := hP
      obtain ⟨m', r', reply, h⟩ := State.transact_of_fatal memInit (s := { s with mem := m, result := r }) hs hx
      exact ⟨_, reply, h, m', r', rfl⟩) txs s htxs ⟨s.mem, s.result, rfl⟩
  exact ⟨m, r, ht⟩

end Sys2Proof.Machine

section
open Sys2Proof Sys2Proof.Machine

/-- Settles O33: every transaction but reset holds a fatal state; a reset leaves it. -/
theorem fatalIsLeftOnlyByReset : Obligations.FatalIsLeftOnlyByReset := by
  intro memInit s c hs
  refine ⟨fun txs htxs => ?_, s.hostReset memInit, rfl, rfl⟩
  obtain ⟨m, r, ht⟩ := State.transactAll_of_fatal memInit hs txs htxs
  exact ⟨_, ht, hs, rfl, rfl, rfl, rfl, rfl, rfl, rfl⟩

/-- Settles O34: every transaction keeps the invariant. -/
theorem transactionsKeepTheInvariant : Obligations.TransactionsKeepTheInvariant := by
  intro memInit txs s t hs ht
  obtain ⟨u, hu, hinv⟩ := State.transactAll_keeps (A := fun _ => True)
    (fun s x _ hs => s.transact_keeps_inv memInit x hs) txs s (fun _ _ => trivial) hs
  exact next_unique hu ht ▸ hinv

/-- Settles O31. -/
theorem supplyKeyDeliversOnlyWhenAwaited : Obligations.SupplyKeyDeliversOnlyWhenAwaited := by
  intro s K
  refine ⟨fun x hx => ?_, fun hs => State.supplyKey_ignored hs K⟩
  rw [State.supplyKey_awaited hx]
  exact ⟨(s.setReg x K).V, rfl, fun r => s.reg_setReg x r K⟩

/-- Settles O32. -/
theorem snapshotIsTheWholeMemory : Obligations.SnapshotIsTheWholeMemory := by
  intro memInit s
  refine ⟨s.snapshot, rfl, Memory.readBlock_length .., fun a ha => ?_⟩
  have hget := Memory.readBlock_getElem s.mem 0 4096 a ha
  rw [Nat.zero_add] at hget
  exact List.getElem?_eq_some_iff.mpr ⟨_, hget⟩

/-- Settles O29. -/
theorem loadCopiesTheImage : Obligations.LoadCopiesTheImage := fun s image hfit =>
  ⟨s.mem.writeBlock 0x200 image, s.loadImage_fits hfit, Memory.read_writeBlock_inside image s.mem 0x200,
    Memory.read_writeBlock_outside image s.mem 0x200⟩

/-- Settles O35: loads and snapshots leave everything but memory, so the key arrives in the state the wait left. -/
theorem keyWaitHoldsUntilTheKeyIsDelivered : Obligations.KeyWaitHoldsUntilTheKeyIsDelivered := by
  intro memInit s x K txs _ htxs
  obtain ⟨m, hu⟩ := State.transactAll_load_or_snapshot memInit ((s.advance.setStatus (.awaitKey x)).finish []) txs htxs
  refine ⟨_, _, exec_ldVxK x s, hu, rfl, fun _ => rfl, ?_⟩
  rw [State.supplyKey_awaited (x := x) rfl]
  exact ⟨rfl, fun r => State.reg_setReg _ x r K, rfl, rfl, rfl⟩

/-- Settles O36: the loaded image's first two bytes are at `pc`. -/
theorem bootedImageRunsFromItsFirstWord : Obligations.BootedImageRunsFromItsFirstWord := by
  intro memInit s hi lo rest i hlen hd
  have hfit : (hi :: lo :: rest).length ≤ 3584 := hlen
  have hload := (s.hostReset memInit).loadImage_fits hfit
  refine ⟨_, hload, rfl, rfl, step_instr ⟨rfl, show 0x200 + 1 ≤ 0xFFF by decide⟩ ?_⟩
  have hhi := Memory.read_writeBlock_inside (hi :: lo :: rest) (s.hostReset memInit).mem 0x200 0 (by simp)
  have hlo := Memory.read_writeBlock_inside (hi :: lo :: rest) (s.hostReset memInit).mem 0x200 1 (by simp)
  rw [← hd]
  exact congrArg decode (congrArg₂ (fun hi lo : Byte => (hi ++ lo : Word)) hhi hlo)

/-- Settles O16. -/
theorem resetLeavesTheValuesOfTheSpec : Obligations.ResetLeavesTheValuesOfTheSpec := by
  refine ⟨State.resetWith_default, fun memInit s r hr => ?_⟩
  have hreg (x : Nibble) : State.reset.reg x = 0 := by simp [State.reg, State.reset]
  have hmem : ∀ a, a < 0x1000 → (Memory.initial memInit).read a = memInit a := fun _ => Memory.read_initial memInit
  obtain rfl | rfl : r = State.resetWith memInit ∨ r = s.hostReset memInit := by simpa using hr
  · exact ⟨rfl, hreg, rfl, rfl, rfl, rfl, rfl, hmem⟩
  · exact ⟨rfl, hreg, rfl, rfl, rfl, rfl, rfl, hmem⟩

end
end

section
/-! PROOFS. The decoder against the opcode table (R66), and the words it does not recognize (R69). -/

namespace Sys2Proof

/-! ## What a masked word says of its fields -/

section
variable {w b : Word} {f n : Nibble} {k : Byte}

theorem layoutA_of_mask (h : w &&& 0xF000 = b) (hf : b = f ++ (0x000 : Addr12)) : f ++ fieldNNN w = w := by
  rw [← layoutA_of_family (w := w) rfl, mask_F000] at h
  exact layoutA_of_family (by rw [← family_layoutA (family w) 0x000, h, hf, family_layoutA])

theorem layoutI_of_mask (h : w &&& 0xF000 = b) (hf : b = f ++ (0x000 : Addr12)) : f ++ fieldX w ++ fieldKK w = w :=
  layoutI_of_family (by rw [← layoutA_of_mask h hf, family_layoutA])

theorem layoutD_of_mask (h : w &&& 0xF000 = b) (hf : b = f ++ (0x000 : Addr12)) :
    f ++ fieldX w ++ fieldY w ++ fieldN w = w :=
  layoutR_of_fields (by rw [← layoutA_of_mask h hf, family_layoutA]) rfl

theorem layoutR_of_mask (h : w &&& 0xF00F = b) (hb : b = f ++ (0x0 : Nibble) ++ (0x0 : Nibble) ++ n) :
    f ++ fieldX w ++ fieldY w ++ n = w := by
  rw [← layoutR_of_fields (w := w) rfl rfl, mask_F00F, hb] at h
  have hf := congrArg family h
  have hn := congrArg fieldN h
  rw [family_layoutR, family_layoutR] at hf
  rw [fieldN_layoutR, fieldN_layoutR] at hn
  exact layoutR_of_fields hf hn

theorem layoutX_of_mask (h : w &&& 0xF0FF = b) (hb : b = f ++ (0x0 : Nibble) ++ k) : f ++ fieldX w ++ k = w := by
  rw [← layoutI_of_family (w := w) rfl, mask_F0FF, hb] at h
  have hf := congrArg family h
  have hk := congrArg fieldKK h
  rw [family_layoutI, family_layoutI] at hf
  rw [fieldKK_layoutI, fieldKK_layoutI] at hk
  exact layoutX_of_fields hf hk

end

/-! ## The rows of R66 -/

theorem OpcodeRow.matchesWord_iff (r : OpcodeRow) (w : Word) : r.matchesWord w = true ↔ w &&& r.mask = r.bits := beq_iff_eq

/-- The word of an instruction has the match bits of its row under the row's mask. -/
theorem encode_fixedBits : ∀ i : Instr, Laws.FixedBits.Statement i
  | .cls => Laws.FixedBits.cls
  | .ret => Laws.FixedBits.ret
  | .jp nnn => Laws.FixedBits.jp nnn
  | .call nnn => Laws.FixedBits.call nnn
  | .seImm x kk => Laws.FixedBits.seImm x kk
  | .sneImm x kk => Laws.FixedBits.sneImm x kk
  | .seReg x y => Laws.FixedBits.seReg x y
  | .ldImm x kk => Laws.FixedBits.ldImm x kk
  | .addImm x kk => Laws.FixedBits.addImm x kk
  | .ldReg x y => Laws.FixedBits.ldReg x y
  | .or x y => Laws.FixedBits.or x y
  | .and x y => Laws.FixedBits.and x y
  | .xor x y => Laws.FixedBits.xor x y
  | .addReg x y => Laws.FixedBits.addReg x y
  | .sub x y => Laws.FixedBits.sub x y
  | .shr x y => Laws.FixedBits.shr x y
  | .subn x y => Laws.FixedBits.subn x y
  | .shl x y => Laws.FixedBits.shl x y
  | .sneReg x y => Laws.FixedBits.sneReg x y
  | .ldI nnn => Laws.FixedBits.ldI nnn
  | .jpV0 nnn => Laws.FixedBits.jpV0 nnn
  | .rnd x kk => Laws.FixedBits.rnd x kk
  | .drw x y n => Laws.FixedBits.drw x y n
  | .skp x => Laws.FixedBits.skp x
  | .sknp x => Laws.FixedBits.sknp x
  | .ldVxDt x => Laws.FixedBits.ldVxDt x
  | .ldVxK x => Laws.FixedBits.ldVxK x
  | .ldDtVx x => Laws.FixedBits.ldDtVx x
  | .ldStVx x => Laws.FixedBits.ldStVx x
  | .addI x => Laws.FixedBits.addI x
  | .ldF x => Laws.FixedBits.ldF x
  | .ldB x => Laws.FixedBits.ldB x
  | .stRegs x => Laws.FixedBits.stRegs x
  | .ldRegs x => Laws.FixedBits.ldRegs x

theorem opcodeRow_mem (i : Instr) : i.opcodeRow ∈ opcodeTable := by
  cases i <;> simp only [Instr.opcodeRow] <;> decide

theorem opcodeRow_matches {w : Word} {i : Instr} (h : decode w = .instr i) : i.opcodeRow.matchesWord w = true := by
  rw [OpcodeRow.matchesWord_iff, ← encode_of_decode h]
  exact encode_fixedBits i

/-- A word that matches a row is the word of an instruction of that row, with the word's own fields as operands. -/
theorem instr_of_row {r : OpcodeRow} (hr : r ∈ opcodeTable) {w : Word} (h : w &&& r.mask = r.bits) :
    ∃ i : Instr, encode i = w ∧ i.opcodeRow = r := by
  have all (a : Word) : a &&& 0xFFFF = a := BitVec.and_allOnes
  simp only [opcodeTable, opcodeRowsPlain, opcodeRowsMiddle, opcodeRowsLowByte, List.cons_append, List.nil_append,
    List.mem_cons, List.not_mem_nil, or_false] at hr
  obtain rfl | rfl | rfl | rfl | rfl | rfl | rfl | rfl | rfl | rfl | rfl | rfl | rfl | rfl | rfl | rfl | rfl | rfl | rfl |
    rfl | rfl | rfl | rfl | rfl | rfl | rfl | rfl | rfl | rfl | rfl | rfl | rfl | rfl | rfl := hr
  · exact ⟨.cls, h.symm.trans (all w), rfl⟩
  · exact ⟨.ret, h.symm.trans (all w), rfl⟩
  · exact ⟨.jp (fieldNNN w), layoutA_of_mask h rfl, rfl⟩
  · exact ⟨.call (fieldNNN w), layoutA_of_mask h rfl, rfl⟩
  · exact ⟨.seImm (fieldX w) (fieldKK w), layoutI_of_mask h rfl, rfl⟩
  · exact ⟨.sneImm (fieldX w) (fieldKK w), layoutI_of_mask h rfl, rfl⟩
  · exact ⟨.seReg (fieldX w) (fieldY w), layoutR_of_mask h rfl, rfl⟩
  · exact ⟨.ldImm (fieldX w) (fieldKK w), layoutI_of_mask h rfl, rfl⟩
  · exact ⟨.addImm (fieldX w) (fieldKK w), layoutI_of_mask h rfl, rfl⟩
  · exact ⟨.ldReg (fieldX w) (fieldY w), layoutR_of_mask h rfl, rfl⟩
  · exact ⟨.or (fieldX w) (fieldY w), layoutR_of_mask h rfl, rfl⟩
  · exact ⟨.and (fieldX w) (fieldY w), layoutR_of_mask h rfl, rfl⟩
  · exact ⟨.xor (fieldX w) (fieldY w), layoutR_of_mask h rfl, rfl⟩
  · exact ⟨.addReg (fieldX w) (fieldY w), layoutR_of_mask h rfl, rfl⟩
  · exact ⟨.sub (fieldX w) (fieldY w), layoutR_of_mask h rfl, rfl⟩
  · exact ⟨.shr (fieldX w) (fieldY w), layoutR_of_mask h rfl, rfl⟩
  · exact ⟨.subn (fieldX w) (fieldY w), layoutR_of_mask h rfl, rfl⟩
  · exact ⟨.shl (fieldX w) (fieldY w), layoutR_of_mask h rfl, rfl⟩
  · exact ⟨.sneReg (fieldX w) (fieldY w), layoutR_of_mask h rfl, rfl⟩
  · exact ⟨.ldI (fieldNNN w), layoutA_of_mask h rfl, rfl⟩
  · exact ⟨.jpV0 (fieldNNN w), layoutA_of_mask h rfl, rfl⟩
  · exact ⟨.rnd (fieldX w) (fieldKK w), layoutI_of_mask h rfl, rfl⟩
  · exact ⟨.drw (fieldX w) (fieldY w) (fieldN w), layoutD_of_mask h rfl, rfl⟩
  · exact ⟨.skp (fieldX w), layoutX_of_mask h rfl, rfl⟩
  · exact ⟨.sknp (fieldX w), layoutX_of_mask h rfl, rfl⟩
  · exact ⟨.ldVxDt (fieldX w), layoutX_of_mask h rfl, rfl⟩
  · exact ⟨.ldVxK (fieldX w), layoutX_of_mask h rfl, rfl⟩
  · exact ⟨.ldDtVx (fieldX w), layoutX_of_mask h rfl, rfl⟩
  · exact ⟨.ldStVx (fieldX w), layoutX_of_mask h rfl, rfl⟩
  · exact ⟨.addI (fieldX w), layoutX_of_mask h rfl, rfl⟩
  · exact ⟨.ldF (fieldX w), layoutX_of_mask h rfl, rfl⟩
  · exact ⟨.ldB (fieldX w), layoutX_of_mask h rfl, rfl⟩
  · exact ⟨.stRegs (fieldX w), layoutX_of_mask h rfl, rfl⟩
  · exact ⟨.ldRegs (fieldX w), layoutX_of_mask h rfl, rfl⟩

theorem decode_of_row {r : OpcodeRow} (hr : r ∈ opcodeTable) {w : Word} (h : r.matchesWord w = true) :
    ∃ i, decode w = .instr i ∧ i.opcodeRow = r := by
  obtain ⟨i, rfl, hrow⟩ := instr_of_row hr ((r.matchesWord_iff w).mp h)
  exact ⟨i, decode_encode i, hrow⟩

/-! ## The unrecognized words, family by family (R69) -/

theorem decodeFamily0_unrecognized_iff (w : Word) :
    decodeFamily0 w = .unrecognized w ↔ w ≠ 0x00E0 ∧ w ≠ 0x00EE := by
  unfold decodeFamily0
  split_ifs <;> simp_all

/-- The low nibbles of family 0x8 that no instruction has. -/
theorem decodeFamily8_unrecognized_iff (w : Word) :
    decodeFamily8 w = .unrecognized w ↔ (fieldN w).toNat ∈ [0x8, 0x9, 0xA, 0xB, 0xC, 0xD, 0xF] := by
  unfold decodeFamily8
  obtain h | h | h | h | h | h | h | h | h | h | h | h | h | h | h | h := family_cases (fieldN w) <;> simp [h]

theorem decodeFamilyE_unrecognized_iff (w : Word) :
    decodeFamilyE w = .unrecognized w ↔ (fieldKK w).toNat ∉ [0x9E, 0xA1] := by
  unfold decodeFamilyE
  split_ifs <;> simp_all [BitVec.toNat_eq]

theorem decodeFamilyF_unrecognized_iff (w : Word) :
    decodeFamilyF w = .unrecognized w ↔
      (fieldKK w).toNat ∉ [0x07, 0x0A, 0x15, 0x18, 0x1E, 0x29, 0x33, 0x55, 0x65] := by
  simp only [decodeFamilyF]
  split_ifs <;> simp_all [BitVec.toNat_eq]

theorem register_pair_unrecognized_iff (w : Word) (i : Instr) :
    (if fieldN w = 0#4 then Decoded.instr i else .unrecognized w) = .unrecognized w ↔ (fieldN w).toNat ≠ 0 := by
  split_ifs <;> simp_all [BitVec.toNat_eq]

end Sys2Proof

section
open Sys2Proof Sys2Proof.Machine

/-- Settles O3: a word that matches a row is the word of an instruction of that row, and decoding inverts encoding. -/
theorem decodeFollowsTheOpcodeTable : Obligations.DecodeFollowsTheOpcodeTable := by
  intro w
  refine ⟨fun r hr hm => decode_of_row hr hm, fun i hi => ⟨opcodeRow_mem i, opcodeRow_matches hi⟩, ?_, ?_, ?_⟩
  · intro r₁ h₁ r₂ h₂ hm₁ hm₂
    obtain ⟨i₁, hd₁, rfl⟩ := decode_of_row h₁ hm₁
    obtain ⟨i₂, hd₂, rfl⟩ := decode_of_row h₂ hm₂
    rw [Decoded.instr.inj (hd₁.symm.trans hd₂)]
  · intro hu r hr
    by_contra hm
    obtain ⟨i, hi, _⟩ := decode_of_row hr (Bool.eq_true_of_not_eq_false hm)
    exact Decoded.noConfusion (hu.symm.trans hi)
  · intro hnone
    cases hd : decode w with
    | unrecognized u => rw [decode_unrecognized hd]
    | instr i => exact Bool.noConfusion ((opcodeRow_matches hd).symm.trans (hnone _ (opcodeRow_mem i)))

/-- Settles O4, family by family. -/
theorem unrecognizedSpaceIsExact : Obligations.UnrecognizedSpaceIsExact := by
  unfold Obligations.UnrecognizedSpaceIsExact
  intro w
  simp only [← toNat_family, ← toNat_fieldN, ← toNat_fieldKK]
  obtain h | h | h | h | h | h | h | h | h | h | h | h | h | h | h | h := family_cases (family w)
  · rw [decode_family0 h, decodeFamily0_unrecognized_iff]; simp [h]
  · rw [decode_family1 h]; simp [h]
  · rw [decode_family2 h]; simp [h]
  · rw [decode_family3 h]; simp [h]
  · rw [decode_family4 h]; simp [h]
  · rw [decode_family5 h, register_pair_unrecognized_iff]; simp [h]
  · rw [decode_family6 h]; simp [h]
  · rw [decode_family7 h]; simp [h]
  · rw [decode_family8 h, decodeFamily8_unrecognized_iff]; simp [h]
  · rw [decode_family9 h, register_pair_unrecognized_iff]; simp [h]
  · rw [decode_familyA h]; simp [h]
  · rw [decode_familyB h]; simp [h]
  · rw [decode_familyC h]; simp [h]
  · rw [decode_familyD h]; simp [h]
  · rw [decode_familyE h, decodeFamilyE_unrecognized_iff]; simp [h]
  · rw [decode_familyF h, decodeFamilyF_unrecognized_iff]; simp [h]

end
end

section
/-! PROOFS. What a step leaves alone: timers, memory, `I`, the stack, the registers and the inputs, each read off the end of
the step and the frame of its instruction (R12, R83, R28). -/

namespace Sys2Proof

/-- The three instructions that read the input of their step (R131, R173, R174). -/
def Instr.ReadsInput : Instr → Prop
  | .rnd _ _ | .skp _ | .sknp _ => True
  | _ => False

end Sys2Proof

namespace Sys2Proof.Machine

/-! ## Timers -/

theorem toNat_decay (v : Byte) : (decay v).toNat = v.toNat - 1 := by
  unfold decay
  split
  · next h => subst h; rfl
  · next h =>
    have : v.toNat ≠ 0 := fun h0 => h (BitVec.eq_of_toNat_eq h0)
    rw [BitVec.toNat_sub_of_le (show (1 : Byte).toNat ≤ v.toNat by show 1 ≤ _; omega)]
    rfl

/-- A step that completes has run an instruction within its frame, or met an unrecognized word. -/
theorem step_completed {s t : State} (h : step s = .next t) (ht : t.NotFatal) :
    (∃ i u es, decode s.wordAtPc = .instr i ∧ Frame i s u ∧ t = u.finish es) ∨
      t = s.advance.finish [.decodeMiss s.wordAtPc] := by
  cases step_end h with
  | repeated c hs => exact absurd hs (ht c)
  | premature => exact absurd rfl (ht _)
  | fetchBeyond => exact absurd rfl (ht _)
  | raised => exact absurd rfl (ht _)
  | completed i u es hf hd he hfr => exact .inl ⟨i, u, es, hd, hfr, rfl⟩
  | missed => exact .inr rfl

theorem step_delay {s t : State} (h : step s = .next t) (ht : t.NotFatal)
    (hno : ∀ x, decode s.wordAtPc ≠ .instr (.ldDtVx x)) : t.DT.toNat = s.DT.toNat - 1 := by
  obtain ⟨i, u, es, hd, hfr, rfl⟩ | rfl := step_completed h ht
  · obtain hDT | ⟨x, rfl⟩ := hfr.delay
    · exact hDT ▸ toNat_decay s.DT
    · exact absurd hd (hno x)
  · exact toNat_decay s.DT

theorem step_sound {s t : State} (h : step s = .next t) (ht : t.NotFatal)
    (hno : ∀ x, decode s.wordAtPc ≠ .instr (.ldStVx x)) : t.ST.toNat = s.ST.toNat - 1 := by
  obtain ⟨i, u, es, hd, hfr, rfl⟩ | rfl := step_completed h ht
  · obtain hST | ⟨x, rfl⟩ := hfr.sound
    · exact hST ▸ toNat_decay s.ST
    · exact absurd hd (hno x)
  · exact toNat_decay s.ST

/-- A counter that every step of a run takes one from, floored at zero, is `n` less after `n` steps. -/
theorem RunsAvoiding.countdown {P : Instr → Prop} {timer : State → Byte}
    (hstep : ∀ s t, step s = .next t → t.NotFatal → (∀ i, decode s.wordAtPc = .instr i → ¬ P i) →
      (timer t).toNat = (timer s).toNat - 1) :
    ∀ (n : Nat) (s t : State), RunsAvoiding P n s t → (timer t).toNat = (timer s).toNat - n
  | 0, s, t, h => h ▸ rfl
  | n + 1, s, t, ⟨u, hu, hnf, hno, hrun⟩ => by
    rw [RunsAvoiding.countdown hstep n u t hrun, hstep s u hu hnf hno, Nat.sub_sub, Nat.add_comm 1 n]

/-! ## Memory, `I` and the stack -/

theorem step_memory {s t : State} (h : step s = .next t)
    (hno : s.CanFetch → ∀ x, decode s.wordAtPc ≠ .instr (.ldB x) ∧ decode s.wordAtPc ≠ .instr (.stRegs x)) :
    t.mem = s.mem := by
  cases step_end h with
  | completed i t es hf hd he hfr =>
    obtain hm | ⟨x, rfl | rfl⟩ := hfr.memory
    · exact hm
    · exact absurd hd (hno hf x).1
    · exact absurd hd (hno hf x).2
  | _ => rfl

theorem step_index {s t : State} (h : step s = .next t)
    (hno : s.CanFetch → ∀ nnn x, decode s.wordAtPc ≠ .instr (.ldI nnn) ∧ decode s.wordAtPc ≠ .instr (.addI x) ∧
      decode s.wordAtPc ≠ .instr (.ldF x)) : t.I = s.I := by
  cases step_end h with
  | completed i t es hf hd he hfr =>
    obtain hI | ⟨nnn, rfl⟩ | ⟨x, rfl | rfl⟩ := hfr.index
    · exact hI
    · exact absurd hd (hno hf nnn 0).1
    · exact absurd hd (hno hf 0 x).2.1
    · exact absurd hd (hno hf 0 x).2.2
  | _ => rfl

theorem sameStack_of_eq {s t : State} (hd : t.depth = s.depth) (hst : t.stack = s.stack) : SameStack s t :=
  ⟨hd, fun k => by rw [hst]⟩

theorem step_stack {s t : State} (h : step s = .next t)
    (hno : s.CanFetch → ∀ nnn, decode s.wordAtPc ≠ .instr (.call nnn) ∧ decode s.wordAtPc ≠ .instr .ret) :
    SameStack s t := by
  cases step_end h with
  | completed i t es hf hd he hfr =>
    obtain ⟨hdepth, hst⟩ | rfl | ⟨nnn, rfl⟩ := hfr.stack
    · exact sameStack_of_eq hdepth hst
    · exact absurd hd (hno hf 0).2
    · exact absurd hd (hno hf nnn).1
  | _ => exact sameStack_of_eq rfl rfl

/-! ## Inputs -/

/-- The state with other inputs waiting. -/
def State.withInputs (s : State) (inputs : List StepInput) : State := { s with inputs := inputs }

/-- Two inputs give the same end: both raise the same cause, or both complete and differ in nothing but what waits. -/
def SameEnd (o o' : Host.Outcome State Fault Refusal) (s : State) (l : List StepInput) : Prop :=
  (∃ c, o = .next (s.raise c) ∧ o' = .next ((s.withInputs l).raise c)) ∨
    ∃ (t : State) (es : List Event), o = .next (t.finish es) ∧ o' = .next ((t.withInputs l).finish es) ∧
      t.inputs = s.inputs

theorem exec_withInputs {i : Instr} (hi : ¬ i.ReadsInput) (s : State) (l : List StepInput) :
    SameEnd (exec i s) (exec i (s.withInputs l)) s l := by
  have raised {c : Cause} (h : exec i s = .next (s.raise c))
      (h' : exec i (s.withInputs l) = .next ((s.withInputs l).raise c)) :
      SameEnd (exec i s) (exec i (s.withInputs l)) s l := .inl ⟨c, h, h'⟩
  have completed {t : State} {es : List Event} (h : exec i s = .next (t.finish es))
      (h' : exec i (s.withInputs l) = .next ((t.withInputs l).finish es)) (hin : t.inputs = s.inputs) :
      SameEnd (exec i s) (exec i (s.withInputs l)) s l := .inr ⟨t, es, h, h', hin⟩
  cases i with
  | rnd | skp | sknp => exact absurd trivial hi
  | ret =>
    by_cases hd : s.depth.val = 0
    · exact raised (exec_ret_empty s hd) (exec_ret_empty (s.withInputs l) hd)
    by_cases hb : s.top.toNat ≤ 0xFFF
    · exact completed (exec_ret_ok s hd hb) (exec_ret_ok (s.withInputs l) hd hb) rfl
    · exact raised (exec_ret_beyond s hd (Nat.lt_of_not_le hb)) (exec_ret_beyond (s.withInputs l) hd (Nat.lt_of_not_le hb))
  | call nnn =>
    by_cases hd : s.depth.val < 16
    · exact completed (exec_call_ok s nnn hd) (exec_call_ok (s.withInputs l) nnn hd) rfl
    · have hfull : s.depth.val = 16 := by omega
      exact raised (exec_call_full s nnn hfull) (exec_call_full (s.withInputs l) nnn hfull)
  | jpV0 nnn =>
    by_cases hb : nnn.toNat + (s.reg 0).toNat ≤ 0xFFF
    · exact completed (exec_jpV0_ok s nnn hb) (exec_jpV0_ok (s.withInputs l) nnn hb) rfl
    · rw [Nat.not_le] at hb
      exact raised (exec_jpV0_beyond s nnn hb) (exec_jpV0_beyond (s.withInputs l) nnn hb)
  | addI x =>
    by_cases hb : s.I.toNat + (s.reg x).toNat ≤ 0xFFFF
    · exact completed (exec_addI_ok s x hb) (exec_addI_ok (s.withInputs l) x hb) rfl
    · rw [Nat.not_le] at hb
      exact raised (exec_addI_beyond s x hb) (exec_addI_beyond (s.withInputs l) x hb)
  | ldB x =>
    by_cases hb : s.I.toNat ≤ 0xFFD
    · exact completed (exec_ldB_ok s x hb) (exec_ldB_ok (s.withInputs l) x hb) rfl
    · rw [Nat.not_le] at hb
      exact raised (exec_ldB_beyond s x hb) (exec_ldB_beyond (s.withInputs l) x hb)
  | stRegs x =>
    by_cases hb : s.I.toNat + x.toNat ≤ 0xFFF
    · exact completed (exec_stRegs_ok s x hb) (exec_stRegs_ok (s.withInputs l) x hb) rfl
    · rw [Nat.not_le] at hb
      exact raised (exec_stRegs_beyond s x hb) (exec_stRegs_beyond (s.withInputs l) x hb)
  | ldRegs x =>
    by_cases hb : s.I.toNat + x.toNat ≤ 0xFFF
    · exact completed (exec_ldRegs_ok s x hb) (exec_ldRegs_ok (s.withInputs l) x hb) rfl
    · rw [Nat.not_le] at hb
      exact raised (exec_ldRegs_beyond s x hb) (exec_ldRegs_beyond (s.withInputs l) x hb)
  | drw x y n =>
    by_cases hb : n.toNat = 0 ∨ s.I.toNat + n.toNat ≤ 0x1000
    · exact completed (exec_drw_ok s x y n hb) (exec_drw_ok (s.withInputs l) x y n hb) rfl
    · have hn : 0 < n.toNat := by omega
      have hlast : 0x1000 < s.I.toNat + n.toNat := by omega
      exact raised (exec_drw_beyond s x y n hn hlast) (exec_drw_beyond (s.withInputs l) x y n hn hlast)
  | seImm x kk => exact completed (exec_seImm s x kk) (exec_seImm (s.withInputs l) x kk) rfl
  | sneImm x kk => exact completed (exec_sneImm s x kk) (exec_sneImm (s.withInputs l) x kk) rfl
  | seReg x y => exact completed (exec_seReg s x y) (exec_seReg (s.withInputs l) x y) rfl
  | sneReg x y => exact completed (exec_sneReg s x y) (exec_sneReg (s.withInputs l) x y) rfl
  | ldF x => exact completed (exec_ldF s x) (exec_ldF (s.withInputs l) x) (State.setI_inputs _ _)
  | _ => exact completed rfl rfl rfl

theorem State.repeatError_eq_raise {s : State} {c : Cause} (hs : s.status = .fatal c) : s.repeatError c = s.raise c := by
  rw [State.repeatError, State.raise, ← hs]

theorem step_withInputs {s : State} (l : List StepInput)
    (hno : ∀ i, decode s.wordAtPc = .instr i → ¬ i.ReadsInput) : SameEnd (step s) (step (s.withInputs l)) s l := by
  cases hs : s.status with
  | fatal c =>
    exact .inl ⟨c, State.repeatError_eq_raise hs ▸ step_of_fatal hs,
      State.repeatError_eq_raise (s := s.withInputs l) hs ▸ step_of_fatal (s := s.withInputs l) hs⟩
  | awaitKey x => exact .inl ⟨_, step_of_awaitKey hs, step_of_awaitKey (s := s.withInputs l) hs⟩
  | running =>
    by_cases hpc : 0xFFE < s.pc.toNat
    · exact .inl ⟨_, step_fetch_beyond hs hpc, step_fetch_beyond (s := s.withInputs l) hs hpc⟩
    have hf : s.CanFetch := ⟨hs, by omega⟩
    cases hd : decode s.wordAtPc with
    | unrecognized u =>
      exact .inr ⟨_, _, step_unrecognized hf hd, step_unrecognized (s := s.withInputs l) hf hd, rfl⟩
    | instr i =>
      rw [step_instr hf hd, step_instr (s := s.withInputs l) hf hd]
      exact exec_withInputs (hno i hd) s l

/-- A step that ends in Fatal(c) has returned Error(c). -/
theorem step_fatal_result {s t : State} {c : Cause} (h : step s = .next t) (hc : t.status = .fatal c) :
    t.result = some (.error c) := by
  cases step_end h with
  | repeated c' hs => rw [Status.fatal.inj (hs.symm.trans hc)]; rfl
  | premature => cases hc; rfl
  | fetchBeyond => cases hc; rfl
  | raised => cases hc; rfl
  | missed hf => exact absurd (hf.1.symm.trans hc) nofun
  | completed i t es hf hd he hfr => exact absurd hc (hfr.notFatal hf.1 c)

/-- With one input read or not, what waits after a completed step does not tell which it was. -/
theorem State.finish_withInputs {t : State} {a b : StepInput} {rest : List StepInput} (h : t.inputs = a :: rest)
    (es : List Event) : (t.withInputs (b :: rest)).finish es = t.finish es := by
  simp [State.finish, State.withInputs, h]

end Sys2Proof.Machine

section
open Sys2Proof Sys2Proof.Machine

/-- Settles O9. -/
theorem unrecognizedWordIsAReportedNoOp : Obligations.UnrecognizedWordIsAReportedNoOp := fun _ _ hf hd =>
  ⟨_, step_unrecognized hf hd, rfl, fun _ => rfl, rfl, sameStack_of_eq rfl rfl, fun _ => rfl, ⟨rfl, rfl⟩, rfl, rfl, rfl, rfl⟩

/-- Settles O18. -/
theorem timersDecayInEveryCompletedStep : Obligations.TimersDecayInEveryCompletedStep :=
  fun _ _ _ hstep ht => ⟨step_delay hstep ht, step_sound hstep ht⟩

/-- Settles O19: every step of the run takes one from the timer. -/
theorem timersCountDownToZeroAndStay : Obligations.TimersCountDownToZeroAndStay := fun n s t =>
  ⟨RunsAvoiding.countdown (fun _ _ h ht hno => step_delay h ht fun x hx => hno _ hx ⟨x, rfl⟩) n s t,
    RunsAvoiding.countdown (fun _ _ h ht hno => step_sound h ht fun x hx => hno _ hx ⟨x, rfl⟩) n s t⟩

/-- Settles O21: the frame of the instruction names the ones that write each element; a step that cannot fetch runs none. -/
theorem stateElementsChangeOnlyByTheirInstructions : Obligations.StateElementsChangeOnlyByTheirInstructions :=
  fun _ _ h => ⟨fun hno => step_memory h fun _ => hno, fun hno => step_index h fun _ => hno,
    fun hno => step_stack h fun _ => hno, fun hf =>
      ⟨step_memory h fun hf' => absurd hf' hf, step_index h fun hf' => absurd hf' hf, step_stack h fun hf' => absurd hf' hf⟩⟩

/-- Settles O22: only a completed instruction changes a register, within its frame. -/
theorem registersChangeOnlyByTheirInstructions : Obligations.RegistersChangeOnlyByTheirInstructions := by
  intro s t r h hr
  cases step_end h with
  | completed i t es hf hd he hfr => exact ⟨hfr.notFatal hf.1, hf, i, hd, hfr.regs r hr⟩
  | _ => exact absurd rfl hr

/-- Settles O27: a step that reads no input ends the same way with either of two, and a completed one has used it up. -/
theorem inputsMatterOnlyToThreeInstructions : Obligations.InputsMatterOnlyToThreeInstructions := by
  intro s t a b rest hrnd hkeys hstep
  have hno (i : Instr) (hd : decode s.wordAtPc = .instr i) : ¬ i.ReadsInput := by
    intro hi
    cases i with
    | rnd x kk => exact hrnd x kk hd
    | skp x => exact (hkeys x).1 hd
    | sknp x => exact (hkeys x).2 hd
    | _ => exact hi
  obtain ⟨c, h, h'⟩ | ⟨u, es, h, h', hin⟩ := step_withInputs (s := s.withInputs (a :: rest)) (b :: rest) hno
  · obtain rfl := next_unique h hstep
    exact ⟨fun hnf => absurd rfl (hnf c), fun _ _ => h'⟩
  · obtain rfl := next_unique h hstep
    rw [State.finish_withInputs hin] at h'
    exact ⟨fun _ => h', fun c hc => absurd (step_fatal_result hstep hc) nofun⟩

end
end

section
/-! PROOFS. The effect of each instruction with its frame (42_load_alu.md to 45_collaborator_ops.md). A completed step is
described once per shape (registers, `pc`, `I`, memory); each statement then names the value its instruction computes. -/

namespace Sys2Proof.Machine

/-! ## The values (R121 to R130), as plain arithmetic -/

theorem addWrap_eq (a b : Byte) : addWrap a b = a + b := by
  rw [addWrap]
  apply BitVec.eq_of_toNat_eq
  simp [BitVec.toNat_add]

theorem subWrap_eq (a b : Byte) : subWrap a b = a - b := by
  rw [subWrap]
  apply BitVec.eq_of_toNat_eq
  rw [BitVec.toNat_ofInt, BitVec.toNat_sub]
  omega

theorem flagByte_decide (p : Prop) [Decidable p] : flagByte (decide p) = if p then 1 else 0 := by
  by_cases h : p <;> simp [flagByte, h]

theorem carryFlag_eq (a b : Byte) : carryFlag a b = if 255 < a.toNat + b.toNat then 1 else 0 := flagByte_decide _

theorem greaterFlag_eq (a b : Byte) : greaterFlag a b = if b.toNat < a.toNat then 1 else 0 := flagByte_decide _

theorem shiftRight1_eq (a : Byte) : shiftRight1 a = BitVec.ofNat 8 (a.toNat / 2) := by
  apply BitVec.eq_of_toNat_eq
  rw [shiftRight1, BitVec.toNat_ushiftRight, BitVec.toNat_ofNat, Nat.shiftRight_eq_div_pow]
  omega

theorem shiftLeft1_eq (a : Byte) : shiftLeft1 a = BitVec.ofNat 8 (a.toNat * 2 % 256) := by
  apply BitVec.eq_of_toNat_eq
  rw [shiftLeft1, BitVec.toNat_shiftLeft, BitVec.toNat_ofNat, Nat.shiftLeft_eq]
  omega

theorem lowBitFlag_eq (a : Byte) : lowBitFlag a = BitVec.ofNat 8 (a.toNat % 2) := by
  rw [lowBitFlag, BitVec.getLsbD, Nat.testBit_zero, flagByte_decide]
  obtain h | h := Nat.mod_two_eq_zero_or_one a.toNat <;> rw [h] <;> rfl

theorem highBitFlag_eq (a : Byte) : highBitFlag a = if 128 ≤ a.toNat then 1 else 0 := by
  have hbit : a.getLsbD 7 = decide (128 ≤ a.toNat) := BitVec.msb_eq_decide a
  rw [highBitFlag, hbit, flagByte_decide]

/-! ## The shapes of a completed step -/

theorem sameMem_of_eq {s t : State} (h : t.mem = s.mem) : SameMem s t := fun _ => by rw [h]

/-- A phase 5 that leaves the timers, `status` and the model's own fields alone ends in a completed step. -/
theorem completedStep_finish (s : State) (V : Vector Byte 16) (I pc : Word) (stack : Vector Word 16) (depth : Fin 17)
    (mem : Memory) (es : List Event) :
    CompletedStep s
      (({ s.advance with V := V, I := I, pc := pc, stack := stack, depth := depth, mem := mem } : State).finish es) es :=
  ⟨⟨rfl, rfl⟩, rfl, rfl, rfl, rfl⟩

/-- A phase 5 that writes registers and `pc` alone. -/
theorem registerStep_finish {s : State} {regs : Nibble → Byte} (V : Vector Byte 16) (pc : Word)
    (hregs : ∀ r, ({ s with V := V } : State).reg r = regs r) :
    RegisterStep s (({ s.advance with V := V, pc := pc } : State).finish []) pc regs :=
  ⟨rfl, hregs, rfl, sameStack_of_eq rfl rfl, sameMem_of_eq rfl, completedStep_finish ..⟩

/-- A phase 5 that writes `I` alone. -/
theorem indexStep_finish (s : State) (I : Word) :
    ((s.advance.setI I).finish []).pc = s.pc + 2 ∧ SameRegs s ((s.advance.setI I).finish []) ∧
      SameStack s ((s.advance.setI I).finish []) ∧ SameMem s ((s.advance.setI I).finish []) ∧
      CompletedStep s ((s.advance.setI I).finish []) [] :=
  ⟨rfl, fun _ => rfl, sameStack_of_eq rfl rfl, sameMem_of_eq rfl, completedStep_finish ..⟩

section
variable (s : State) (x : Nibble)

theorem registerStep_setReg {v v' : Byte} (hv : v = v') :
    RegisterStep s ((s.advance.setReg x v).finish []) (s.pc + 2) (fun r => if r = x then v' else s.reg r) :=
  hv ▸ registerStep_finish _ _ fun r => State.reg_setReg s x r v

theorem registerStep_resultThenFlag {v v' f f' : Byte} (hv : v = v') (hf : f = f') :
    RegisterStep s ((s.advance.resultThenFlag x v f).finish []) (s.pc + 2)
      (fun r => if r = 0xF then f' else if r = x then v' else s.reg r) :=
  hv ▸ hf ▸ registerStep_finish _ _ fun r => State.reg_resultThenFlag s x r v f

theorem registerStep_flagThenResult {v v' f f' : Byte} (hv : v = v') (hf : f = f') :
    RegisterStep s ((s.advance.flagThenResult x f v).finish []) (s.pc + 2)
      (fun r => if r = x then v' else if r = 0xF then f' else s.reg r) :=
  hv ▸ hf ▸ registerStep_finish _ _ fun r => State.reg_flagThenResult s x r f v

theorem registerStep_setPc (pc : Word) : RegisterStep s ((s.advance.setPc pc).finish []) pc s.reg :=
  registerStep_finish _ _ fun _ => rfl

end

/-! ## Skips and inputs -/

theorem State.skipTarget_decide (s : State) (p : Prop) [Decidable p] :
    s.skipTarget (decide p) = if p then s.pc + 4 else s.pc + 2 := by
  by_cases h : p <;> simp [State.skipTarget, h]

theorem State.skipTarget_not_decide (s : State) (p : Prop) [Decidable p] :
    s.skipTarget (!decide p) = if p then s.pc + 2 else s.pc + 4 := by
  by_cases h : p <;> simp [State.skipTarget, h]

theorem State.input_none {s : State} (h : s.inputs = []) : s.input = Config.stepInput s.draws := by
  rw [State.input, h]; rfl

theorem State.input_first {s : State} {a : StepInput} {l : List StepInput} (h : s.inputs = a :: l) : s.input = a := by
  rw [State.input, h]; rfl

theorem State.keyPressed_eq (s : State) (k : Byte) : s.keyPressed k = decide (k ∈ s.input.pressed) := by
  simp [State.keyPressed]

/-- What the two key skips do, the pressed keys named. -/
theorem keySkips_registerStep (s : State) (x : Nibble) {pressed : List Byte} (h : s.input.pressed = pressed) :
    (∃ t, exec (.skp x) s = .next t ∧ RegisterStep s t (if s.reg x ∈ pressed then s.pc + 4 else s.pc + 2) s.reg) ∧
      ∃ t, exec (.sknp x) s = .next t ∧ RegisterStep s t (if s.reg x ∈ pressed then s.pc + 2 else s.pc + 4) s.reg := by
  have hskp := exec_skp s x
  have hsknp := exec_sknp s x
  rw [s.keyPressed_eq, h, s.skipTarget_decide] at hskp
  rw [s.keyPressed_eq, h, s.skipTarget_not_decide] at hsknp
  exact ⟨⟨_, hskp, registerStep_setPc s _⟩, _, hsknp, registerStep_setPc s _⟩

/-- What RND does, the random byte named. -/
theorem rnd_registerStep (s : State) (x : Nibble) (kk : Byte) {rand : Byte} (h : s.input.rand = rand) :
    ∃ t, exec (.rnd x kk) s = .next t ∧
      RegisterStep s t (s.pc + 2) (fun r => if r = x then rand &&& kk else s.reg r) ∧ (kk = 0 → t.reg x = 0) := by
  subst h
  refine ⟨_, rfl, registerStep_setReg s x rfl, fun hk => ?_⟩
  subst hk
  exact (State.reg_setReg_same _ x _).trans BitVec.and_zero

/-! ## Block accesses -/

theorem State.read_stored_reg (s : State) {x r : Nibble} (h : r.toNat ≤ x.toNat) :
    (s.mem.writeBlock s.I.toNat (s.regsUpTo x)).read (s.I.toNat + r.toNat) = s.reg r := by
  have hr : r.toNat < (s.regsUpTo x).length := by rw [State.regsUpTo_length]; omega
  exact (Memory.read_writeBlock_inside _ _ _ _ hr).trans (s.regsUpTo_getElem x r h)

theorem State.reg_setRegs_readBlock (s : State) (m : Memory) (a : Nat) (x r : Nibble) :
    (s.setRegs (m.readBlock a (x.toNat + 1))).reg r = if r.toNat ≤ x.toNat then m.read (a + r.toNat) else s.reg r := by
  rw [State.reg_setRegs]
  by_cases h : r.toNat ≤ x.toNat
  · rw [dif_pos (by rw [Memory.readBlock_length]; omega), if_pos h, Memory.readBlock_getElem _ _ _ _ (by omega)]
  · rw [dif_neg (by rw [Memory.readBlock_length]; omega), if_neg h]

theorem toNat_fontAddress (v : Byte) :
    (fontAddress Config.font v).toNat = Config.font.base + Config.font.stride * v.toNat := by
  have hwf : Config.font.base + Config.font.stride * 255 ≤ 0xFFFF := of_decide_eq_true Config_font_wf
  have hv : Config.font.stride * v.toNat ≤ Config.font.stride * 255 := Nat.mul_le_mul_left _ (Nat.le_of_lt_succ v.isLt)
  exact Nat.mod_eq_of_lt (show _ < 65536 by omega)

end Sys2Proof.Machine

section
open Sys2Proof Sys2Proof.Machine

/-! ### 42_load_alu.md -/

/-- Settles O37. -/
theorem registerLoadsWriteOnlyVx : Obligations.RegisterLoadsWriteOnlyVx := fun s x _ _ =>
  ⟨⟨_, rfl, registerStep_setReg s x rfl⟩, _, rfl, registerStep_setReg s x rfl⟩

/-- Settles O38. -/
theorem addImmediateWrapsWithoutFlag : Obligations.AddImmediateWrapsWithoutFlag := fun s x _ =>
  ⟨_, rfl, registerStep_setReg s x rfl⟩

/-- Settles O39. -/
theorem logicOpsWriteOnlyVx : Obligations.LogicOpsWriteOnlyVx := fun s x _ =>
  ⟨⟨_, rfl, registerStep_setReg s x rfl⟩, ⟨_, rfl, registerStep_setReg s x rfl⟩, _, rfl, registerStep_setReg s x rfl⟩

/-- Settles O40: result, then carry. -/
theorem addRegistersSetsTheCarry : Obligations.AddRegistersSetsTheCarry := fun s x _ =>
  ⟨_, rfl, registerStep_resultThenFlag s x (addWrap_eq _ _) (carryFlag_eq _ _)⟩

/-- Settles O41: flag, then difference. -/
theorem subtractsSetTheStrictlyGreaterFlag : Obligations.SubtractsSetTheStrictlyGreaterFlag := fun s x _ =>
  ⟨⟨_, rfl, registerStep_flagThenResult s x (subWrap_eq _ _) (greaterFlag_eq _ _)⟩,
    _, rfl, registerStep_flagThenResult s x (subWrap_eq _ _) (greaterFlag_eq _ _)⟩

/-- Settles O42: flag, then shifted value. -/
theorem shiftsMoveVxAndCatchTheLostBit : Obligations.ShiftsMoveVxAndCatchTheLostBit := fun s x _ =>
  ⟨⟨_, rfl, registerStep_flagThenResult s x (shiftRight1_eq _) (lowBitFlag_eq _)⟩,
    _, rfl, registerStep_flagThenResult s x (shiftLeft1_eq _) (highBitFlag_eq _)⟩

/-- Settles O43: the input is the first that waits, or the free draw. -/
theorem randomIsMaskedByTheImmediate : Obligations.RandomIsMaskedByTheImmediate := by
  intro s x kk
  cases hin : s.inputs with
  | nil => exact rnd_registerStep s x kk (congrArg StepInput.rand (State.input_none hin))
  | cons a l => exact rnd_registerStep s x kk (congrArg StepInput.rand (State.input_first hin))

/-! ### 41_control_flow.md -/

/-- Settles O44. -/
theorem registerSkipsTestTheirCondition : Obligations.RegisterSkipsTestTheirCondition := by
  intro s x y kk
  refine ⟨⟨_, exec_seImm s x kk, ?_⟩, ⟨_, exec_sneImm s x kk, ?_⟩, ⟨_, exec_seReg s x y, ?_⟩, _, exec_sneReg s x y, ?_⟩
  · exact s.skipTarget_decide (s.reg x = kk) ▸ registerStep_setPc s _
  · exact s.skipTarget_not_decide (s.reg x = kk) ▸ registerStep_setPc s _
  · exact s.skipTarget_decide (s.reg x = s.reg y) ▸ registerStep_setPc s _
  · exact s.skipTarget_not_decide (s.reg x = s.reg y) ▸ registerStep_setPc s _

/-- Settles O45. -/
theorem jumpGoesToItsAddress : Obligations.JumpGoesToItsAddress := fun s nnn =>
  ⟨_, rfl, toNat_zextAddr nnn, registerStep_setPc s (zextAddr nnn)⟩

/-- Settles O46. -/
theorem callPushesTheNextAddress : Obligations.CallPushesTheNextAddress := by
  intro s nnn
  refine ⟨fun hd => ?_, exec_call_full s nnn⟩
  have hslot := s.afterCall_slot nnn hd
  refine ⟨_, exec_call_afterCall s nnn hd, toNat_zextAddr nnn, rfl, hslot, fun hpc k hk => ?_, fun _ => rfl, rfl,
    sameMem_of_eq rfl, completedStep_finish ..⟩
  rw [hslot, if_pos hk, hpc]
  rfl

/-- Settles O47. -/
theorem returnPopsTheTopEntry : Obligations.ReturnPopsTheTopEntry := by
  intro s
  refine ⟨fun k hk hb => ?_, fun k hk hb => ?_, exec_ret_empty s⟩
  · rw [← s.top_eq k hk] at hb ⊢
    refine ⟨_, exec_ret_ok s (by omega) hb, rfl, Nat.sub_add_cancel (by omega), fun _ => rfl, fun _ => rfl, rfl,
      sameMem_of_eq rfl, completedStep_finish ..⟩
  · rw [← s.top_eq k hk] at hb
    exact exec_ret_beyond s (by omega) hb

/-- Settles O48. -/
theorem indexedJumpAddsV0WithoutWrap : Obligations.IndexedJumpAddsV0WithoutWrap := fun s nnn =>
  ⟨fun h => ⟨_, exec_jpV0_ok s nnn h, toNat_jpV0_target h, registerStep_setPc s _⟩, exec_jpV0_beyond s nnn⟩

/-! ### 43_index_memory.md -/

/-- Settles O49. -/
theorem loadIndexWritesTheAddress : Obligations.LoadIndexWritesTheAddress := fun s nnn =>
  ⟨_, rfl, toNat_zextAddr nnn, indexStep_finish s _⟩

/-- Settles O50. -/
theorem addIndexIsFatalPastSixteenBits : Obligations.AddIndexIsFatalPastSixteenBits := fun s x =>
  ⟨fun h => ⟨_, exec_addI_ok s x h, Nat.mod_eq_of_lt (Nat.lt_succ_of_le h), indexStep_finish s _⟩, exec_addI_beyond s x⟩

/-- Settles O51: the bound of R142 holds of the parameters in use. -/
theorem fontAddressIsNeverTruncated : Obligations.FontAddressIsNeverTruncated := fun s x =>
  ⟨_, exec_ldF s x, toNat_fontAddress (s.reg x), indexStep_finish s _⟩

/-- Settles O52: the three digits are read back from the block that was stored. -/
theorem decimalDigitsAreStoredAtI : Obligations.DecimalDigitsAreStoredAtI := by
  intro s x
  refine ⟨fun h => ?_, exec_ldB_beyond s x⟩
  have hread (k : Nat) (hk : k < 3) := Memory.read_writeBlock_inside (decimalDigits (s.reg x)) s.mem s.I.toNat k hk
  have hv := (s.reg x).isLt
  refine ⟨_, exec_ldB_ok s x h, ?_, ?_, ?_, Memory.read_writeBlock_outside (decimalDigits (s.reg x)) s.mem s.I.toNat, rfl,
    fun _ => rfl, rfl, sameStack_of_eq rfl rfl, completedStep_finish ..⟩
  · exact (congrArg BitVec.toNat (hread 0 (by decide))).trans (Nat.mod_eq_of_lt (show _ < 256 by omega))
  · exact (congrArg BitVec.toNat (hread 1 (by decide))).trans (Nat.mod_eq_of_lt (show _ < 256 by omega))
  · exact (congrArg BitVec.toNat (hread 2 (by decide))).trans (Nat.mod_eq_of_lt (show _ < 256 by omega))

/-- Settles O53. -/
theorem registerBlockIsStoredAtI : Obligations.RegisterBlockIsStoredAtI := by
  intro s x
  refine ⟨fun h => ?_, exec_stRegs_beyond s x⟩
  refine ⟨_, exec_stRegs_ok s x h, fun r hr => s.read_stored_reg hr, fun a ha => ?_, rfl, fun _ => rfl, rfl,
    sameStack_of_eq rfl rfl, completedStep_finish ..⟩
  exact Memory.read_writeBlock_outside _ _ _ _ (by rw [State.regsUpTo_length]; omega)

/-- Settles O54. -/
theorem registerBlockIsLoadedFromI : Obligations.RegisterBlockIsLoadedFromI := fun s x =>
  ⟨fun h => ⟨_, exec_ldRegs_ok s x h, registerStep_finish _ _ (s.reg_setRegs_readBlock s.mem s.I.toNat x)⟩,
    exec_ldRegs_beyond s x⟩

/-! ### 44_timers.md -/

/-- Settles O55. -/
theorem timerInstructionsComeAfterTheDecay : Obligations.TimerInstructionsComeAfterTheDecay := fun s x =>
  ⟨⟨_, rfl, registerStep_setReg s x (decay_eq s.DT)⟩,
    ⟨_, rfl, rfl, rfl, rfl, fun _ => rfl, rfl, sameStack_of_eq rfl rfl, sameMem_of_eq rfl, rfl, rfl, rfl, rfl⟩,
    _, rfl, rfl, rfl, rfl, fun _ => rfl, rfl, sameStack_of_eq rfl rfl, sameMem_of_eq rfl, rfl, rfl, rfl, rfl⟩

/-! ### 45_collaborator_ops.md -/

/-- Settles O56. -/
theorem clearRequestChangesNoState : Obligations.ClearRequestChangesNoState := fun _ =>
  ⟨_, rfl, rfl, fun _ => rfl, rfl, sameStack_of_eq rfl rfl, sameMem_of_eq rfl, completedStep_finish ..⟩

/-- Settles O57. -/
theorem drawRequestCarriesTheSpriteBytes : Obligations.DrawRequestCarriesTheSpriteBytes := by
  intro s x y n
  refine ⟨fun h => ?_, fun hn h => exec_drw_beyond s x y n hn (by omega)⟩
  refine ⟨_, s.mem.readBlock s.I.toNat n.toNat, exec_drw_ok s x y n (by omega), Memory.readBlock_length .., fun k hk => ?_,
    rfl, fun _ => rfl, rfl, sameStack_of_eq rfl rfl, sameMem_of_eq rfl, completedStep_finish ..⟩
  exact List.getElem?_eq_some_iff.mpr ⟨_, Memory.readBlock_getElem s.mem s.I.toNat n.toNat k hk⟩

/-- Settles O58: the input is the first that waits, or the free draw. -/
theorem keySkipsAskForTheFullKeyNumber : Obligations.KeySkipsAskForTheFullKeyNumber := by
  intro s x
  cases hin : s.inputs with
  | nil => exact keySkips_registerStep s x (congrArg StepInput.pressed (State.input_none hin))
  | cons a l => exact keySkips_registerStep s x (congrArg StepInput.pressed (State.input_first hin))

/-- Settles O59. -/
theorem keyWaitCompletesItsStep : Obligations.KeyWaitCompletesItsStep := fun s x =>
  ⟨_, exec_ldVxK x s, rfl, rfl, ⟨rfl, rfl⟩, fun _ => rfl, rfl, sameStack_of_eq rfl rfl, sameMem_of_eq rfl, rfl, rfl, rfl⟩

end
end

section
/-! PROOFS. Instructions one after another: a word placed where the step fetches (log 9), calls and returns (R100, R102), a
block stored and loaded again (R144, R145), and the jump to itself. -/

namespace Sys2Proof.Machine

/-! ## A placed word -/

/-- After `placeAtFetch` of two bytes the step can fetch, and the word at `pc` is theirs. -/
theorem State.placeAtFetch_fetches (s : State) (hi lo : Byte) :
    (s.placeAtFetch [hi, lo]).CanFetch ∧ (s.placeAtFetch [hi, lo]).wordAtPc = wordOfBytes hi lo := by
  refine ⟨⟨rfl, ?_⟩, ?_⟩
  · simp only [State.placeAtFetch]
    split
    · decide
    · next h =>
      have hpc := (accessInBounds_iff s.pc.toNat 2).mp (by simpa using h)
      omega
  · have hread (pc : Word) (k : Nat) (hk : k < 2) := Memory.read_writeBlock_inside [hi, lo] s.mem pc.toNat k hk
    exact congrArg₂ (fun a b : Byte => (a ++ b : Word)) (hread _ 0 (by decide)) (hread _ 1 (by decide))

theorem State.withFetchWord_eq (s : State) (w : Word) :
    s.withFetchWord 16 w.toNat = s.placeAtFetch [w.extractLsb' 8 8, w.extractLsb' 0 8] := by
  rw [State.withFetchWord, tableWordBytes_toNat]

theorem decodeTableWord_eq {w : Word} {i : Instr} (h : decode w = .instr i) : decodeTableWord 16 w.toNat = some i := by
  simp only [decodeTableWord, tableWordBytes_toNat, decodeBytes, wordOfBytes_split, h]

/-! ## Sixteen calls -/

/-- Calls that find a free slot each complete, one entry per call. -/
theorem execAll_calls (targets : List Addr12) : ∀ s : State, s.depth.val + targets.length ≤ 16 →
    ∃ t, execAll (targets.map .call) s = .next t ∧ t.depth.val = s.depth.val + targets.length ∧ t.status = s.status := by
  induction targets with
  | nil => exact fun s _ => ⟨s, rfl, rfl, rfl⟩
  | cons nnn targets ih =>
    intro s h
    rw [List.length_cons] at h
    have hd : s.depth.val < 16 := by omega
    obtain ⟨t, ht, hdepth, hstatus⟩ := ih (s.afterCall nnn hd) (by rw [State.afterCall_depth]; omega)
    rw [State.afterCall_depth] at hdepth
    refine ⟨t, ?_, by rw [hdepth, List.length_cons]; omega, hstatus⟩
    simp only [List.map_cons, execAll, exec_call_afterCall s nnn hd, ht]

/-! ## A store over the next word -/

/-- The word at an address where `V0, V1, ...` have been stored is `V0, V1`. -/
theorem State.word_stored (s : State) {x : Nibble} (hx : 1 ≤ x.toNat) :
    ((s.mem.writeBlock s.I.toNat (s.regsUpTo x)).read s.I.toNat ++
      (s.mem.writeBlock s.I.toNat (s.regsUpTo x)).read (s.I.toNat + 1) : Word) = s.reg 0 ++ s.reg 1 :=
  congrArg₂ (fun a b : Byte => (a ++ b : Word)) (s.read_stored_reg (r := 0) (Nat.zero_le _)) (s.read_stored_reg (r := 1) hx)

/-! ## A jump with the timers at rest -/

theorem State.advance_of_rest {s : State} (hDT : s.DT = 0) (hST : s.ST = 0) : s.advance = s.setPc (s.pc + 2) := by
  rw [State.advance, State.setPc, hDT, hST]
  rfl

end Sys2Proof.Machine

section
open Sys2Proof Sys2Proof.Machine

/-- Settles O8: the placed bytes are the ones that are fetched. -/
theorem stepRunsAPlacedWord : Obligations.StepRunsAPlacedWord := by
  intro s w i hd
  obtain ⟨hf, hword⟩ := s.placeAtFetch_fetches (w.extractLsb' 8 8) (w.extractLsb' 0 8)
  rw [wordOfBytes_split] at hword
  rw [s.withFetchWord_eq]
  exact ⟨decodeTableWord_eq hd, step_instr hf ((congrArg decode hword).trans hd)⟩

/-- Settles O23: the return finds the pushed address on top. -/
theorem callThenReturnComesBack : Obligations.CallThenReturnComesBack := by
  intro s nnn hd hpc
  have hnext : (s.pc + 2).toNat = s.pc.toNat + 2 := toNat_pc_next (by omega)
  obtain ⟨t, hcall, htpc, htdepth, hslot, _, htregs, _, _, _, htstatus, _⟩ := (callPushesTheNextAddress s nnn).1 hd
  have htop : t.stack[(⟨s.depth.val, hd⟩ : Fin 16)] = s.pc + 2 := (hslot ⟨s.depth.val, hd⟩).trans (if_pos rfl)
  obtain ⟨u, hret, hupc, hudepth, hustack, huregs, _, _, _, hustatus, _⟩ :=
    (returnPopsTheTopEntry t).1 ⟨s.depth.val, hd⟩ htdepth.symm (by rw [htop]; omega)
  have hkeep (k : Fin 16) (hk : k.val < s.depth.val) : u.stack[k] = s.stack[k] := by
    rw [hustack, hslot, if_neg (Nat.ne_of_lt hk)]
  exact ⟨t, u, hcall, htpc, hret, hustatus.trans htstatus, hupc.trans htop, Fin.ext (by omega), hkeep,
    fun r => (huregs r).trans (htregs r)⟩

/-- Settles O24: the calls complete while there is a slot; with none left the call raises, and the next step repeats it. -/
theorem seventeenthNestedCallOverflows : Obligations.SeventeenthNestedCallOverflows := by
  refine ⟨fun s targets hd hlen => ?_, fun t nnn hd => ?_⟩
  · obtain ⟨t, ht, hdepth, hstatus⟩ := execAll_calls targets s (by omega)
    exact ⟨t, ht, by omega, hstatus⟩
  · exact ⟨_, exec_call_full t nnn hd, rfl, rfl, rfl, _, step_of_fatal (c := .stackOverflow) rfl, rfl, rfl⟩

/-- Settles O25. -/
theorem storedRegistersAreLoadedBack : Obligations.StoredRegistersAreLoadedBack := by
  intro s x h
  refine ⟨_, exec_stRegs_ok s x h, fun V' => ⟨_, exec_ldRegs_ok _ x h, fun r hr => ?_⟩⟩
  rw [State.finish_reg, State.reg_setRegs_readBlock, if_pos hr]
  exact s.read_stored_reg hr

/-- Settles O26: the store puts `V0, V1` at the address the next step fetches from. -/
theorem storedInstructionIsRunByTheNextStep : Obligations.StoredInstructionIsRunByTheNextStep := by
  intro s x i hf hd hx hI hend hi
  refine ⟨_, (step_instr hf hd).trans (exec_stRegs_ok s x hend), rfl, step_instr ⟨hf.1, ?_⟩ ?_⟩
  · show (s.pc + 2).toNat + 1 ≤ 0xFFF
    rw [← hI]
    omega
  · rw [← hi, ← s.word_stored hx, hI]
    rfl

/-- Settles O28: with the timers at rest the advance moves `pc` alone, and the jump moves it back. -/
theorem jumpToItselfIsAFixedPoint : Obligations.JumpToItselfIsAFixedPoint := by
  intro s nnn hf hd hnnn hDT hST
  have hpc : zextAddr nnn = s.pc := BitVec.eq_of_toNat_eq ((toNat_zextAddr nnn).trans hnnn)
  have hjump : exec (.jp nnn) s = .next ((s.advance.setPc (zextAddr nnn)).finish []) := rfl
  rw [step_instr hf hd, hjump, State.advance_of_rest hDT hST, hpc]
  rfl

end
end
